-- ==== Sys2Proof/Word.lean ====
section
/-! DEFINITION. The word types of the machine (spec/10_state.md R20, spec/00_scope.md R10 to R12). -/

namespace Sys2Proof

/-- A general register, a timer, a byte of memory, a byte of the display: 8 bits, unsigned (R10). -/
abbrev Byte := BitVec 8

/-- `I`, `PC`, a stack entry, an opcode: 16 bits, unsigned (R10, R80). -/
abbrev Word := BitVec 16

/-- A field of four bits of an opcode: `x`, `y` (register indices, R23) and `n` (R82). -/
abbrev Nibble := BitVec 4

/-- The address field `nnn` of an opcode: 12 bits (R82). -/
abbrev Addr := BitVec 12

end Sys2Proof
end

