-- ==== Sys2Proof/Syntax.lean ====
section
/-! DEFINITION. The instructions: one constructor per row of spec/opcode_table.json (spec/30_encoding.md R83 to R88,
spec/47_unrecognised.md R220), with the operand fields of R82 already taken out of the word. -/

namespace Sys2Proof

/-- The 34 instructions and the fall-through no-op. `x` and `y` are register indices (never out of range, R23), `kk` a
byte, `nnn` a 12-bit address, `n` a row count. -/
inductive Instr where
  /-- `00E0` CLS: clear the display (R165). -/
  | cls
  /-- `00EE` RET: return from subroutine (R110). -/
  | ret
  /-- `1nnn` JP nnn (R111). -/
  | jp (nnn : Addr)
  /-- `2nnn` CALL nnn (R112). -/
  | call (nnn : Addr)
  /-- `3xkk` SE Vx, kk: skip if equal (R114). -/
  | seImm (x : Nibble) (kk : Byte)
  /-- `4xkk` SNE Vx, kk: skip if not equal (R115). -/
  | sneImm (x : Nibble) (kk : Byte)
  /-- `5xy0` SE Vx, Vy: skip if the registers are equal (R116). -/
  | seReg (x y : Nibble)
  /-- `6xkk` LD Vx, kk (R130). -/
  | ldImm (x : Nibble) (kk : Byte)
  /-- `7xkk` ADD Vx, kk, without a carry flag (R131). -/
  | addImm (x : Nibble) (kk : Byte)
  /-- `8xy0` LD Vx, Vy (R142). -/
  | ldReg (x y : Nibble)
  /-- `8xy1` OR Vx, Vy (R143). -/
  | orReg (x y : Nibble)
  /-- `8xy2` AND Vx, Vy (R144). -/
  | andReg (x y : Nibble)
  /-- `8xy3` XOR Vx, Vy (R145). -/
  | xorReg (x y : Nibble)
  /-- `8xy4` ADD Vx, Vy, with carry flag (R146). -/
  | addReg (x y : Nibble)
  /-- `8xy5` SUB Vx, Vy, with no-borrow flag (R147). -/
  | subReg (x y : Nibble)
  /-- `8xy6` SHR Vx; `y` is encoded and ignored (R148). -/
  | shr (x y : Nibble)
  /-- `8xy7` SUBN Vx, Vy: reversed subtract (R149). -/
  | subnReg (x y : Nibble)
  /-- `8xyE` SHL Vx; `y` is encoded and ignored (R150). -/
  | shl (x y : Nibble)
  /-- `9xy0` SNE Vx, Vy: skip if the registers differ (R117). -/
  | sneReg (x y : Nibble)
  /-- `Annn` LD I, nnn (R132). -/
  | ldI (nnn : Addr)
  /-- `Bnnn` JP V0, nnn (R113). -/
  | jpV0 (nnn : Addr)
  /-- `Cxkk` RND Vx, kk: masked random byte (R160). -/
  | rnd (x : Nibble) (kk : Byte)
  /-- `Dxyn` DRW Vx, Vy, n: draw an n-row sprite (R166). -/
  | drw (x y n : Nibble)
  /-- `Ex9E` SKP Vx: skip if the key is down (R185). -/
  | skp (x : Nibble)
  /-- `ExA1` SKNP Vx: skip if the key is not down (R186). -/
  | sknp (x : Nibble)
  /-- `Fx07` LD Vx, DT: read the delay timer (R189). -/
  | ldVxDT (x : Nibble)
  /-- `Fx0A` LD Vx, K: wait for a key (R187). -/
  | ldVxK (x : Nibble)
  /-- `Fx15` LD DT, Vx: set the delay timer (R190). -/
  | ldDTVx (x : Nibble)
  /-- `Fx18` LD ST, Vx: set the sound timer (R191). -/
  | ldSTVx (x : Nibble)
  /-- `Fx1E` ADD I, Vx (R200). -/
  | addI (x : Nibble)
  /-- `Fx29` LD F, Vx: point the index at a font glyph (R201). -/
  | ldF (x : Nibble)
  /-- `Fx33` LD B, Vx: store binary-coded decimal (R202). -/
  | ldB (x : Nibble)
  /-- `Fx55` LD [I], Vx: store V0 to Vx (R203). -/
  | storeRegs (x : Nibble)
  /-- `Fx65` LD Vx, [I]: load V0 to Vx (R204). -/
  | loadRegs (x : Nibble)
  /-- Every other word: the fall-through no-op of R220, with the word it was decoded from (of which no field is
  interpreted). -/
  | nop (word : Word)
deriving DecidableEq, Repr

end Sys2Proof
end

