-- ==== Sys2Proof/WellFormed.lean ====
section
/-! DEFINITION. Which terms of `Instr` are instructions of the machine. The operand fields carry their widths in their
types, so the one check is that the word of a no-op is one that no row of the opcode map selects (spec/47 R220). -/

namespace Sys2Proof

/-- The mask and match of each of the 34 instruction rows of spec/30_encoding.md R86, R87 and R88, in the table's
order: a word `op` selects the row when `op and mask = match`. -/
def opcodeRows : List (Word × Word) :=
  [ (0xFFFF, 0x00E0), (0xFFFF, 0x00EE), (0xF000, 0x1000), (0xF000, 0x2000), (0xF000, 0x3000), (0xF000, 0x4000),
    (0xF00F, 0x5000), (0xF000, 0x6000), (0xF000, 0x7000) ] ++
  [ (0xF00F, 0x8000), (0xF00F, 0x8001), (0xF00F, 0x8002), (0xF00F, 0x8003), (0xF00F, 0x8004), (0xF00F, 0x8005),
    (0xF00F, 0x8006), (0xF00F, 0x8007), (0xF00F, 0x800E), (0xF00F, 0x9000) ] ++
  [ (0xF000, 0xA000), (0xF000, 0xB000), (0xF000, 0xC000), (0xF000, 0xD000), (0xF0FF, 0xE09E), (0xF0FF, 0xE0A1) ] ++
  [ (0xF0FF, 0xF007), (0xF0FF, 0xF00A), (0xF0FF, 0xF015), (0xF0FF, 0xF018), (0xF0FF, 0xF01E), (0xF0FF, 0xF029),
    (0xF0FF, 0xF033), (0xF0FF, 0xF055), (0xF0FF, 0xF065) ]

/-- The word selects the row (R86). -/
def selects (op : Word) (row : Word × Word) : Bool := op &&& row.1 == row.2

/-- Some row of the opcode map selects the word (R85). -/
def recognised (op : Word) : Bool := opcodeRows.any (selects op)

/-- The well-formed instructions: every field value is legal (R23, R84); a no-op's word is unrecognised (R220). -/
def wellFormed : Instr → Bool
  | .nop w => !recognised w
  | .cls | .ret | .jp _ | .call _ | .seImm _ _ | .sneImm _ _ | .seReg _ _ | .ldImm _ _ | .addImm _ _ => true
  | .ldReg _ _ | .orReg _ _ | .andReg _ _ | .xorReg _ _ | .addReg _ _ | .subReg _ _ | .shr _ _ => true
  | .subnReg _ _ | .shl _ _ | .sneReg _ _ | .ldI _ | .jpV0 _ | .rnd _ _ | .drw _ _ _ | .skp _ | .sknp _ => true
  | .ldVxDT _ | .ldVxK _ | .ldDTVx _ | .ldSTVx _ | .addI _ | .ldF _ | .ldB _ | .storeRegs _ | .loadRegs _ => true

end Sys2Proof
end

