-- ==== Sys2Proof/Decode.lean ====
section
/-! DEFINITION. From bytes to an instruction and back (spec/30_encoding.md R80 to R88, spec/47_unrecognised.md R220).
The decoder matches whole patterns (R85); a word that matches none is the no-op. The encoder is written from the
patterns of R83. -/

namespace Sys2Proof

/-! ## The fields of R82 -/

/-- `t`, bits 15:12: the top nibble. -/
def fieldT (op : Word) : Nibble := op.extractLsb' 12 4
/-- `x`, bits 11:8. -/
def fieldX (op : Word) : Nibble := op.extractLsb' 8 4
/-- `y`, bits 7:4. -/
def fieldY (op : Word) : Nibble := op.extractLsb' 4 4
/-- `n`, bits 3:0. -/
def fieldN (op : Word) : Nibble := op.extractLsb' 0 4
/-- `kk`, bits 7:0. -/
def fieldKK (op : Word) : Byte := op.extractLsb' 0 8
/-- `nnn`, bits 11:0. -/
def fieldNNN (op : Word) : Addr := op.extractLsb' 0 12

/-- The opcode of two bytes, big-endian: the first byte in bits 15:8 (R81, R56). -/
def bigEndian (hi lo : Byte) : Word := hi ++ lo

/-- The byte of a word that lies at the lower address (R81). -/
def highByte (op : Word) : Byte := op.extractLsb' 8 8
/-- The byte of a word that lies at the higher address (R81). -/
def lowByte (op : Word) : Byte := op.extractLsb' 0 8

/-! ## Decoding -/

/-- Family 0: only the whole words `00E0` and `00EE` (R85, R86). -/
def decode0 (op : Word) : Instr :=
  if op = 0x00E0 then .cls else if op = 0x00EE then .ret else .nop op

/-- Family 8, by the minor opcode `n` (R87). -/
def decode8 (op : Word) : Instr :=
  match fieldN op with
  | 0x0#4 => .ldReg (fieldX op) (fieldY op)
  | 0x1#4 => .orReg (fieldX op) (fieldY op)
  | 0x2#4 => .andReg (fieldX op) (fieldY op)
  | 0x3#4 => .xorReg (fieldX op) (fieldY op)
  | 0x4#4 => .addReg (fieldX op) (fieldY op)
  | 0x5#4 => .subReg (fieldX op) (fieldY op)
  | 0x6#4 => .shr (fieldX op) (fieldY op)
  | 0x7#4 => .subnReg (fieldX op) (fieldY op)
  | 0xE#4 => .shl (fieldX op) (fieldY op)
  | _ => .nop op

/-- Family E, by the minor byte `kk` (R88). -/
def decodeE (op : Word) : Instr :=
  match fieldKK op with
  | 0x9E#8 => .skp (fieldX op)
  | 0xA1#8 => .sknp (fieldX op)
  | _ => .nop op

/-- Family F, by the minor byte `kk` (R88). -/
def decodeF (op : Word) : Instr :=
  match fieldKK op with
  | 0x07#8 => .ldVxDT (fieldX op)
  | 0x0A#8 => .ldVxK (fieldX op)
  | 0x15#8 => .ldDTVx (fieldX op)
  | 0x18#8 => .ldSTVx (fieldX op)
  | 0x1E#8 => .addI (fieldX op)
  | 0x29#8 => .ldF (fieldX op)
  | 0x33#8 => .ldB (fieldX op)
  | 0x55#8 => .storeRegs (fieldX op)
  | 0x65#8 => .loadRegs (fieldX op)
  | _ => .nop op

/-- The instruction a word stands for: total, the unrecognised words being the no-op (R85, R86, R220). -/
def decodeWord (op : Word) : Instr :=
  match fieldT op with
  | 0x0#4 => decode0 op
  | 0x1#4 => .jp (fieldNNN op)
  | 0x2#4 => .call (fieldNNN op)
  | 0x3#4 => .seImm (fieldX op) (fieldKK op)
  | 0x4#4 => .sneImm (fieldX op) (fieldKK op)
  | 0x5#4 => if fieldN op = 0 then .seReg (fieldX op) (fieldY op) else .nop op
  | 0x6#4 => .ldImm (fieldX op) (fieldKK op)
  | 0x7#4 => .addImm (fieldX op) (fieldKK op)
  | 0x8#4 => decode8 op
  | 0x9#4 => if fieldN op = 0 then .sneReg (fieldX op) (fieldY op) else .nop op
  | 0xA#4 => .ldI (fieldNNN op)
  | 0xB#4 => .jpV0 (fieldNNN op)
  | 0xC#4 => .rnd (fieldX op) (fieldKK op)
  | 0xD#4 => .drw (fieldX op) (fieldY op) (fieldN op)
  | 0xE#4 => decodeE op
  | _ => decodeF op

/-- Why bytes are not decoded. -/
inductive DecodeError where
  /-- Fewer than the two bytes every instruction has (R80). -/
  | truncated
  /-- Raised by the strict Decoder of R96 only, for a word of R221; the machine executes it as a no-op. -/
  | unknownInstruction (op : Word)
deriving DecidableEq, Repr

/-- The instruction at the head of a list of bytes, with the bytes after it (R80, R81). -/
def decode : List Byte → Except DecodeError (Instr × List Byte)
  | hi :: lo :: rest => .ok (decodeWord (bigEndian hi lo), rest)
  | _ => .error .truncated

/-- The document's Decoder, strict where the machine is permissive (R96). -/
def decodeStrict (op : Word) : Except DecodeError Instr :=
  match decodeWord op with
  | .nop w => .error (.unknownInstruction w)
  | i => .ok i

/-! ## Encoding (R83) -/

/-- Format A: top nibble and address. -/
def formatA (t : Nibble) (nnn : Addr) : Word := t ++ nnn
/-- Format XK: top nibble, register, byte (format X too, its byte the minor opcode). -/
def formatXK (t x : Nibble) (kk : Byte) : Word := t ++ (x ++ kk)
/-- Formats XY and XYN: top nibble, two registers, minor opcode or row count. -/
def formatXYN (t x y n : Nibble) : Word := t ++ (x ++ (y ++ n))

/-- The word of an instruction (R83, R86 to R88). -/
def encode : Instr → Word
  | .cls => 0x00E0
  | .ret => 0x00EE
  | .jp nnn => formatA 0x1 nnn
  | .call nnn => formatA 0x2 nnn
  | .seImm x kk => formatXK 0x3 x kk
  | .sneImm x kk => formatXK 0x4 x kk
  | .seReg x y => formatXYN 0x5 x y 0x0
  | .ldImm x kk => formatXK 0x6 x kk
  | .addImm x kk => formatXK 0x7 x kk
  | .ldReg x y => formatXYN 0x8 x y 0x0
  | .orReg x y => formatXYN 0x8 x y 0x1
  | .andReg x y => formatXYN 0x8 x y 0x2
  | .xorReg x y => formatXYN 0x8 x y 0x3
  | .addReg x y => formatXYN 0x8 x y 0x4
  | .subReg x y => formatXYN 0x8 x y 0x5
  | .shr x y => formatXYN 0x8 x y 0x6
  | .subnReg x y => formatXYN 0x8 x y 0x7
  | .shl x y => formatXYN 0x8 x y 0xE
  | .sneReg x y => formatXYN 0x9 x y 0x0
  | .ldI nnn => formatA 0xA nnn
  | .jpV0 nnn => formatA 0xB nnn
  | .rnd x kk => formatXK 0xC x kk
  | .drw x y n => formatXYN 0xD x y n
  | .skp x => formatXK 0xE x 0x9E
  | .sknp x => formatXK 0xE x 0xA1
  | .ldVxDT x => formatXK 0xF x 0x07
  | .ldVxK x => formatXK 0xF x 0x0A
  | .ldDTVx x => formatXK 0xF x 0x15
  | .ldSTVx x => formatXK 0xF x 0x18
  | .addI x => formatXK 0xF x 0x1E
  | .ldF x => formatXK 0xF x 0x29
  | .ldB x => formatXK 0xF x 0x33
  | .storeRegs x => formatXK 0xF x 0x55
  | .loadRegs x => formatXK 0xF x 0x65
  | .nop w => w

/-- The two bytes of an instruction, as they lie in memory (R81). -/
def encodeBytes (i : Instr) : List Byte := [highByte (encode i), lowByte (encode i)]

/-! ## The host's question -/

/-- The 16-bit word the host's number stands for: its low `nbits` bits, every bit above them 0. -/
def tableWord (nbits w : Nat) : Word := BitVec.ofNat 16 (w % 2 ^ nbits)

/-- The instruction this decoder reads from the word, laid out in memory as the hardware stores it. -/
def decodeTableWord (nbits w : Nat) : Option Instr :=
  match decode [highByte (tableWord nbits w), lowByte (tableWord nbits w)] with
  | .ok (i, _) => some i
  | .error _ => none

end Sys2Proof
end

