-- ==== Sys2Proof/Config.lean ====
section
/-! DEFINITION. The parameters of the machine (spec/00_scope.md R9) and its free values: the environment's answers to
the three draws of R17, which no rule constrains. (FONT_BASE and FONT_DATA stand in Machine/Font.lean.) -/

namespace Sys2Proof

/-- MEM_SIZE: bytes of main memory (R9, R34). -/
abbrev Config.memSize : Nat := 4096

/-- PROG_BASE: the reset value of the program counter and the place of a program (R9, R53). -/
abbrev Config.progBase : Nat := 0x200

/-- STACK_DEPTH: entries of the call stack. OPEN in the source, the spec's default 16 (R9, decision D5; log entry 4). -/
abbrev Config.stackDepth : Nat := 16

/-- DISP_W and DISP_H: the display's pixels across and down (R9, R32). -/
abbrev Config.dispW : Nat := 64

/-- DISP_H, the display's rows (R9, R32). -/
abbrev Config.dispH : Nat := 32

/-- Bytes in a row of the display (R9, R32). -/
abbrev Config.dispRowBytes : Nat := 8

/-- DISP_BYTES: bytes of the display buffer (R9, R32). -/
abbrev Config.dispBytes : Nat := 256

/-- FREE VALUE. The environment's answer to the `n`-th `RandByte()` (R17, R161: no distribution, no period, no relation
between draws may be assumed). It has no body, so nothing is provable of it (log entry 1). -/
opaque Config.randByte : Nat → Byte

/-- FREE VALUE. The environment's answer to the `n`-th `KeyDown(k)`, for each 8-bit `k` (R17, R188; log entry 1). -/
opaque Config.keyDown : Nat → Byte → Bool

/-- FREE VALUE. The environment's answer to the `n`-th `KeyEvent()`: none, or an 8-bit key code (R17, R188; log
entry 1). -/
opaque Config.keyEvent : Nat → Option Byte

end Sys2Proof
end

