-- ==== Sys2Proof/Machine/State.lean ====
section
/-! DEFINITION. The state of the machine (spec/10_state.md R20: "the following and nothing else"), the reasons a step
could stop, and the state after reset (R38). -/

namespace Sys2Proof.Machine

/-- The status register of R35. Its codes are `statusCode`. -/
inductive Status where
  /-- The core executes a step when asked (code 0). -/
  | running
  /-- A normal end of the run (code 1). -/
  | halted
  /-- An error (code 2). -/
  | fault
deriving DecidableEq, Repr

/-- Why `status` left RUNNING (R36). Its codes are `causeCode`. -/
inductive Cause where
  /-- NONE (code 0). -/
  | none
  /-- HALT_PC_TOP (code 1): a step begun with PC above 0xFFE (R231). -/
  | haltPcTop
  /-- HALT_STACK_EMPTY (code 2): `00EE` with an empty stack (R232). -/
  | haltStackEmpty
  /-- FAULT_MEM_RANGE (code 3): a data access past 0xFFF (R234). -/
  | faultMemRange
  /-- FAULT_STACK_OVERFLOW (code 4): `2nnn` with a full stack (R235). -/
  | faultStackOverflow
deriving DecidableEq, Repr

/-- Main memory: the bytes that differ from what an unlisted address reads as, in rising order of address. -/
abbrev Mem := List Host.Cell

/-- The display buffer (R32). -/
abbrev Display := Vector Byte Config.dispBytes

/-- The general registers V0 to VF (R21). -/
abbrev RegFile := Vector Byte 16

/-- The architectural state (R20), and three counters of the model's own (log entry 2). -/
structure State where
  /-- V[0] to V[15] (R21, R22). -/
  v : RegFile
  /-- The index register (R24). -/
  i : Word
  /-- The program counter (R25, R27). -/
  pc : Word
  /-- The call stack's entries, those at `sp` and above stale (R28, R29). -/
  stack : Vector Word Config.stackDepth
  /-- How many entries are in use, 0 to STACK_DEPTH (R29). -/
  sp : Fin (Config.stackDepth + 1)
  /-- The delay timer (R30). -/
  dt : Byte
  /-- The sound timer (R31). -/
  st : Byte
  /-- Main memory (R34). -/
  mem : Mem
  /-- The display buffer (R32). -/
  disp : Display
  /-- RUNNING, HALTED or FAULT (R35). -/
  status : Status
  /-- Why `status` left RUNNING (R36). -/
  cause : Cause
  /-- The model's own: how many answers of `RandByte()` were taken; the next is `Config.randByte randIx`. -/
  randIx : Nat
  /-- The model's own: how many answers of `KeyDown` were taken; the next is `Config.keyDown keyDownIx`. -/
  keyDownIx : Nat
  /-- The model's own: how many answers of `KeyEvent()` were taken; the next is `Config.keyEvent keyEventIx`. -/
  keyEventIx : Nat
deriving DecidableEq, Repr

/-- The faults that end the model's run: there are none. The hardware's halts and faults are states of the hardware
(R233, R236), and every state has a next state (R230, R239; log entry 3), so nothing raises a fault of the model. Safe. -/
inductive Fault where
deriving DecidableEq, Repr

/-- The refusals. No step raises one: every instruction has its meaning. The read accessors refuse outside their
domain (R172, R262). -/
inductive Refusal where
  /-- Reserved for an instruction without a meaning; every instruction has one, so no arm of `exec` raises it. Safe. -/
  | notModelled (mnemonic : String)
  /-- Raised by `readPixel` outside the 64 by 32 pixels, for which the spec gives no result (R172). Safe. -/
  | pixelOutsideDisplay (x y : Nat)
  /-- Raised by `peekNextOpcode` when PC is above 0xFFE, for which the spec gives no result (R262). Safe. -/
  | peekPastTop
  /-- Raised by the memory getter of R8 for an address above 0xFFF, which does not exist (R50). Safe. -/
  | noSuchAddress (address : Nat)
  /-- Raised by the display getter of R8 for an index above 255, which does not exist (R32). Safe. -/
  | noSuchDisplayByte (index : Nat)
deriving DecidableEq, Repr

/-- The machine right after reset (R38, R270): every register, timer and display byte zero, the stack empty, PC at
0x200, status RUNNING, cause NONE, memory with nothing listed (the font and zeros are what unlisted addresses read as).
The three counters start at 0 (log entry 2). -/
def State.reset : State where
  v := Vector.replicate 16 0
  i := 0
  pc := BitVec.ofNat 16 Config.progBase
  stack := Vector.replicate Config.stackDepth 0
  sp := 0
  dt := 0
  st := 0
  mem := []
  disp := Vector.replicate Config.dispBytes 0
  status := .running
  cause := .none
  randIx := 0
  keyDownIx := 0
  keyEventIx := 0

end Sys2Proof.Machine
end

