-- ==== Sys2Proof/Machine/Font.lean ====
section
/-! DEFINITION. The font and the contents of memory after reset (spec/20_memory.md R53, R54, spec/10_state.md R38). -/

namespace Sys2Proof.Machine

/-- FONT_BASE: where the glyphs lie. OPEN in the source, the spec's default 0x000 (R54, decision D18; log entry 5). -/
def fontBase : Nat := 0x000

/-- The glyphs of the digits 0 to 7, five bytes each, top row first (R54; log entry 5). -/
def fontLow : List Byte :=
  [0xF0, 0x90, 0x90, 0x90, 0xF0] ++ [0x20, 0x60, 0x20, 0x20, 0x70] ++ [0xF0, 0x10, 0xF0, 0x80, 0xF0] ++
  [0xF0, 0x10, 0xF0, 0x10, 0xF0] ++ [0x90, 0x90, 0xF0, 0x10, 0x10] ++ [0xF0, 0x80, 0xF0, 0x10, 0xF0] ++
  [0xF0, 0x80, 0xF0, 0x90, 0xF0] ++ [0xF0, 0x10, 0x20, 0x40, 0x40]

/-- The glyphs of the digits 8 to F (R54; log entry 5). -/
def fontHigh : List Byte :=
  [0xF0, 0x90, 0xF0, 0x90, 0xF0] ++ [0xF0, 0x90, 0xF0, 0x10, 0xF0] ++ [0xF0, 0x90, 0xF0, 0x90, 0x90] ++
  [0xE0, 0x90, 0xE0, 0x90, 0xE0] ++ [0xF0, 0x80, 0x80, 0x80, 0xF0] ++ [0xE0, 0x90, 0x90, 0x90, 0xE0] ++
  [0xF0, 0x80, 0xF0, 0x80, 0xF0] ++ [0xF0, 0x80, 0xF0, 0x80, 0x80]

/-- FONT_DATA: 80 bytes (R9, R54). -/
def fontData : List Byte := fontLow ++ fontHigh

/-- What an address that memory does not list reads as: its contents after reset, the font at FONT_BASE and 0x00
everywhere else (R38, R53). -/
def unlistedByte (a : Nat) : Byte :=
  if fontBase ≤ a then fontData.getD (a - fontBase) 0 else 0

end Sys2Proof.Machine
end

