-- ==== Sys2Proof/Machine/Ops.lean ====
section
/-! DEFINITION. The named operations over the state: registers, memory, the stack, the program counter, and stopping.
Every read and write of a piece of state by a meaning goes through one of these. -/

namespace Sys2Proof.Machine

/-! ## General registers (R21): sixteen ordinary registers, none of them hardwired -/

/-- `V[r]`. -/
def State.reg (s : State) (r : Nibble) : Byte := s.v[r.toNat]'(r.isLt)

/-- `V[r] <- b`. -/
def State.setReg (s : State) (r : Nibble) (b : Byte) : State := { s with v := s.v.set r.toNat b r.isLt }

/-- The register file replaced as a whole (by `Fx65`). -/
def State.setRegs (s : State) (v : RegFile) : State := { s with v := v }

/-- `VF <- b` (R22). -/
def State.setVF (s : State) (b : Byte) : State := s.setReg 0xF b

/-! ## The other registers -/

/-- `I <- w` (R24). -/
def State.setI (s : State) (w : Word) : State := { s with i := w }

/-- `PC <- w` (R13). -/
def State.setPc (s : State) (w : Word) : State := { s with pc := w }

/-- `DT <- b` (R30). -/
def State.setDT (s : State) (b : Byte) : State := { s with dt := b }

/-- `ST <- b` (R31). -/
def State.setST (s : State) (b : Byte) : State := { s with st := b }

/-- The display buffer replaced (R32). -/
def State.setDisp (s : State) (d : Display) : State := { s with disp := d }

/-! ## Program counter -/

/-- `PC <- PC + 2`: the fetch's advance (R25) and a taken skip (R283). -/
def State.advance (s : State) : State := s.setPc (s.pc + 2)

/-- A skip: `PC <- PC + 2` if the condition holds; the skipped word is not looked at (R114, R283). -/
def State.skipIf (s : State) (c : Bool) : State := if c then s.advance else s

/-! ## Main memory (R34, R50) -/

/-- One byte of memory: the listed byte, else what an unlisted address reads as. Meanings use it for addresses up to
0xFFF only, the range check of R59 standing before every use (R14). -/
def memRead : Mem → Nat → Byte
  | [], a => unlistedByte a
  | (k, c) :: m, a => if a = k then c else memRead m a

/-- Memory without an entry for the address. -/
def memErase : Mem → Nat → Mem
  | [], _ => []
  | (k, c) :: m, a => if k = a then memErase m a else (k, c) :: memErase m a

/-- Memory with an entry put in front of the first one of a higher address. -/
def memInsert : Mem → Nat → Byte → Mem
  | [], a, b => [(a, b)]
  | (k, c) :: m, a, b => if a < k then (a, b) :: (k, c) :: m else (k, c) :: memInsert m a b

/-- One byte stored, the canonical form kept: an entry equal to what its address reads as unlisted is not listed. There
is no byte at 0x1000 and above (R50), so nothing is stored there; the range check of R59 stands before every use. -/
def memWrite (m : Mem) (a : Nat) (b : Byte) : Mem :=
  if Config.memSize ≤ a then m
  else if b = unlistedByte a then memErase m a
  else memInsert (memErase m a) a b

/-- Bytes stored at consecutive addresses, the first at `a`. -/
def memWriteAll : Mem → Nat → List Byte → Mem
  | m, _, [] => m
  | m, a, b :: bs => memWriteAll (memWrite m a b) (a + 1) bs

/-- The canonical form from an address on: addresses from `lo`, strictly rising, inside memory, and no entry equal to
what its address reads as unlisted. -/
def memWfFrom : Nat → Mem → Bool
  | _, [] => true
  | lo, (k, c) :: m => decide (lo ≤ k) && decide (k < Config.memSize) && decide (c ≠ unlistedByte k) && memWfFrom (k + 1) m

/-- The canonical form of memory. -/
def Mem.wf (m : Mem) : Bool := memWfFrom 0 m

/-- `MemRead(a, 1)` (R14). -/
def State.byteAt (s : State) (a : Nat) : Byte := memRead s.mem a

/-- `MemWrite(a, 1, b)` for each byte in turn, from address `a` on (R14). -/
def State.storeBytes (s : State) (a : Nat) (bs : List Byte) : State := { s with mem := memWriteAll s.mem a bs }

/-! ## The call stack (R16, R28, R29) -/

/-- `Push(w)`, defined only while an entry is free. -/
def State.push (s : State) (w : Word) (h : s.sp.val < Config.stackDepth) : State :=
  { s with stack := s.stack.set s.sp.val w h, sp := ⟨s.sp.val + 1, Nat.succ_lt_succ h⟩ }

/-- The value `Pop()` returns, defined only while an entry is in use. -/
def State.top (s : State) (h : 0 < s.sp.val) : Word :=
  s.stack[s.sp.val - 1]'(by have := s.sp.isLt; omega)

/-- What `Pop()` does to SP; the entry itself stays, stale (R29). -/
def State.drop (s : State) : State :=
  { s with sp := ⟨s.sp.val - 1, by have := s.sp.isLt; omega⟩ }

/-! ## Stopping: the machine's one exception entry (R15, R233, R236, R237, R240)

A halt or fault writes `status` and `cause` and nothing else: no handler, no saved registers, no change of PC (which
keeps the fetch's advance). There is no return from it: no instruction resumes a stopped core (R241); the way on is
`Reset()` (Machine/Environment.lean). -/

/-- What stopping writes, for a halt and a fault alike. -/
def State.stop (s : State) (st : Status) (c : Cause) : State := { s with status := st, cause := c }

/-- `halt(c)` (R233). -/
def State.halt (s : State) (c : Cause) : State := s.stop .halted c

/-- `raise Fault(c)` (R236). -/
def State.raiseFault (s : State) (c : Cause) : State := s.stop .fault c

/-- The 2-bit code of the status (R35). -/
def statusCode : Status → BitVec 2
  | .running => 0
  | .halted => 1
  | .fault => 2

/-- The 3-bit code of the cause (R36). -/
def causeCode : Cause → BitVec 3
  | .none => 0
  | .haltPcTop => 1
  | .haltStackEmpty => 2
  | .faultMemRange => 3
  | .faultStackOverflow => 4

/-! ## The draws (R17): taking one answer makes the next a fresh one (log entry 2) -/

/-- One answer of `RandByte()` taken. -/
def State.tookRand (s : State) : State := { s with randIx := s.randIx + 1 }

/-- One answer of `KeyDown` taken. -/
def State.tookKeyDown (s : State) : State := { s with keyDownIx := s.keyDownIx + 1 }

/-- One answer of `KeyEvent()` taken. -/
def State.tookKeyEvent (s : State) : State := { s with keyEventIx := s.keyEventIx + 1 }

end Sys2Proof.Machine
end

