-- ==== Sys2Proof/Machine/Flags.lean ====
section
/-! DEFINITION. Every flag computation of the machine (spec/42_alu.md R140, R141, spec/44_display.md R167). VF is the
only flag, a full register that holds 0 or 1 after a flag write (R22). -/

namespace Sys2Proof.Machine

/-- The byte a flag write puts into VF. -/
def flagByte (b : Bool) : Byte := if b then 1 else 0

/-- Carry of `a + b`, in unbounded arithmetic: the sum exceeds 255 (R146). -/
def carryOf (a b : Byte) : Bool := decide (a.toNat + b.toNat > 255)

/-- No borrow in `a - b`: `a >= b`, equality included (R147, R149). -/
def noBorrow (a b : Byte) : Bool := decide (b.toNat ≤ a.toNat)

/-- The bit a right shift by one moves out: the least significant (R148). -/
def shiftedOutRight (a : Byte) : Bool := a.getLsbD 0

/-- The bit a left shift by one moves out: the most significant (R150). -/
def shiftedOutLeft (a : Byte) : Bool := a.getLsbD 7

/-- A set pixel of the display byte `before` was cleared: `before and after` is not `before` (R167). -/
def collided (before after : Byte) : Bool := before &&& after != before

end Sys2Proof.Machine
end

