-- ==== Sys2Proof/Machine/Operands.lean ====
section
/-! DEFINITION. The operand forms of spec/30_encoding.md R84 and spec/46_index_memory.md R199: register and byte
operands are used as they are; what remains is the zero-extended address and memory at `I` plus a running offset. -/

namespace Sys2Proof.Machine

/-- `zext_16(nnn)` (R84). -/
def addrOperand (nnn : Addr) : Word := nnn.setWidth 16

/-- `zext_16(V[r])`, for the sums of `Bnnn` and `Fx1E` (R113, R200). -/
def State.regExtended (s : State) (r : Nibble) : Word := (s.reg r).setWidth 16

/-- The effective address of the `k`-th byte, in unbounded arithmetic: nothing wraps (R199, R60). -/
def State.effAddr (s : State) (k : Nat) : Nat := s.i.toNat + k

/-- The range check of R59: the last byte, at offset `k`, lies above 0xFFF. -/
def State.outOfRange (s : State) (k : Nat) : Bool := decide (s.effAddr k > 0xFFF)

/-- The registers V0 to Vx, in order, as a list of bytes (R203). -/
def State.regsUpTo (s : State) (x : Nibble) : List Byte := s.v.toList.take (x.toNat + 1)

/-- `V[k] <- MemRead(base + k, 1)` for `k` from 0, `count` times, on a register file (R204). -/
def loadInto (m : Mem) (base : Nat) : Nat → RegFile → RegFile
  | 0, v => v
  | k + 1, v => (loadInto m base k v).setIfInBounds k (memRead m (base + k))

/-- The three decimal digits of a byte, hundreds first, as numbers 0 to 9 (R202). -/
def bcdDigits (b : Byte) : List Byte :=
  [BitVec.ofNat 8 (b.toNat / 100), BitVec.ofNat 8 (b.toNat / 10 % 10), BitVec.ofNat 8 (b.toNat % 10)]

/-- The address of the glyph of a digit: the low four bits of the byte select it, five bytes a glyph (R201). -/
def glyphAddr (b : Byte) : Word := BitVec.ofNat 16 (fontBase + 5 * (b &&& 0x0F).toNat)

end Sys2Proof.Machine
end

