-- ==== Sys2Proof/Machine/Alu.lean ====
section
/-! DEFINITION. The register ALU, 8xy0 to 8xyE (spec/42_alu.md). In the arithmetic instructions both operands are read
first, the result goes to Vx and the flag to VF last (R140); the shifts write the flag first and shift Vx as it then
stands (R148, R150). -/

namespace Sys2Proof.Machine

/-- The write order of R140: result to `V[x]`, then the flag to VF. -/
def State.resultThenFlag (s : State) (x : Nibble) (result : Byte) (flag : Bool) : State :=
  (s.setReg x result).setVF (flagByte flag)

/-- `8xy0` LD Vx, Vy (R142). -/
def execLdReg (x y : Nibble) (s : State) : Host.Outcome State Fault Refusal :=
  .next (s.setReg x (s.reg y))

/-- `8xy1` OR Vx, Vy; VF unchanged (R143). -/
def execOrReg (x y : Nibble) (s : State) : Host.Outcome State Fault Refusal :=
  .next (s.setReg x (s.reg x ||| s.reg y))

/-- `8xy2` AND Vx, Vy; VF unchanged (R144). -/
def execAndReg (x y : Nibble) (s : State) : Host.Outcome State Fault Refusal :=
  .next (s.setReg x (s.reg x &&& s.reg y))

/-- `8xy3` XOR Vx, Vy; VF unchanged (R145). -/
def execXorReg (x y : Nibble) (s : State) : Host.Outcome State Fault Refusal :=
  .next (s.setReg x (s.reg x ^^^ s.reg y))

/-- `8xy4` ADD Vx, Vy: VF is the carry (R146). -/
def execAddReg (x y : Nibble) (s : State) : Host.Outcome State Fault Refusal :=
  .next (s.resultThenFlag x (s.reg x + s.reg y) (carryOf (s.reg x) (s.reg y)))

/-- `8xy5` SUB Vx, Vy: VF is 1 for no borrow (R147). -/
def execSubReg (x y : Nibble) (s : State) : Host.Outcome State Fault Refusal :=
  .next (s.resultThenFlag x (s.reg x - s.reg y) (noBorrow (s.reg x) (s.reg y)))

/-- The two lines of R148: flag first, then the shift of what Vx now holds. -/
def State.shiftRight (s : State) (x : Nibble) : State :=
  let s1 := s.setVF (flagByte (shiftedOutRight (s.reg x)))
  s1.setReg x (s1.reg x >>> 1)

/-- `8xy6` SHR Vx; `y` is ignored (R148). -/
def execShr (x _y : Nibble) (s : State) : Host.Outcome State Fault Refusal :=
  .next (s.shiftRight x)

/-- `8xy7` SUBN Vx, Vy: `V[x] <- V[y] - V[x]`, VF is 1 for no borrow (R149). -/
def execSubnReg (x y : Nibble) (s : State) : Host.Outcome State Fault Refusal :=
  .next (s.resultThenFlag x (s.reg y - s.reg x) (noBorrow (s.reg y) (s.reg x)))

/-- The two lines of R150: flag first, then the shift of what Vx now holds. -/
def State.shiftLeft (s : State) (x : Nibble) : State :=
  let s1 := s.setVF (flagByte (shiftedOutLeft (s.reg x)))
  s1.setReg x (s1.reg x <<< 1)

/-- `8xyE` SHL Vx; `y` is ignored (R150). -/
def execShl (x _y : Nibble) (s : State) : Host.Outcome State Fault Refusal :=
  .next (s.shiftLeft x)

end Sys2Proof.Machine
end

