-- ==== Sys2Proof/Machine/ControlFlow.lean ====
section
/-! DEFINITION. RET, JP, CALL, JP V0, SE, SNE (spec/40_control_flow.md). On entry PC is `pc0 + 2`. -/

namespace Sys2Proof.Machine

/-- `00EE` RET: pop into PC; on an empty stack, halt with HALT_STACK_EMPTY (R110, R232). -/
def execRet (s : State) : Host.Outcome State Fault Refusal :=
  if h : 0 < s.sp.val then .next (s.drop.setPc (s.top h)) else .next (s.halt .haltStackEmpty)

/-- `1nnn` JP: `PC <- nnn` (R111). -/
def execJp (nnn : Addr) (s : State) : Host.Outcome State Fault Refusal :=
  .next (s.setPc (addrOperand nnn))

/-- `2nnn` CALL: push PC and jump; on a full stack, FAULT_STACK_OVERFLOW and nothing pushed (R112, R235). -/
def execCall (nnn : Addr) (s : State) : Host.Outcome State Fault Refusal :=
  if h : s.sp.val < Config.stackDepth then .next ((s.push s.pc h).setPc (addrOperand nnn))
  else .next (s.raiseFault .faultStackOverflow)

/-- `Bnnn` JP V0, nnn: `PC <- V[0] + nnn`, not reduced to 12 bits (R113). -/
def execJpV0 (nnn : Addr) (s : State) : Host.Outcome State Fault Refusal :=
  .next (s.setPc (s.regExtended 0 + addrOperand nnn))

/-- `3xkk` SE Vx, kk (R114). -/
def execSeImm (x : Nibble) (kk : Byte) (s : State) : Host.Outcome State Fault Refusal :=
  .next (s.skipIf (s.reg x == kk))

/-- `4xkk` SNE Vx, kk (R115). -/
def execSneImm (x : Nibble) (kk : Byte) (s : State) : Host.Outcome State Fault Refusal :=
  .next (s.skipIf (s.reg x != kk))

/-- `5xy0` SE Vx, Vy (R116). -/
def execSeReg (x y : Nibble) (s : State) : Host.Outcome State Fault Refusal :=
  .next (s.skipIf (s.reg x == s.reg y))

/-- `9xy0` SNE Vx, Vy (R117). -/
def execSneReg (x y : Nibble) (s : State) : Host.Outcome State Fault Refusal :=
  .next (s.skipIf (s.reg x != s.reg y))

end Sys2Proof.Machine
end

