-- ==== Sys2Proof/Machine/Immediate.lean ====
section
/-! DEFINITION. LD Vx,kk; ADD Vx,kk; LD I,nnn (spec/41_immediate.md). -/

namespace Sys2Proof.Machine

/-- `6xkk` LD Vx, kk (R130). -/
def execLdImm (x : Nibble) (kk : Byte) (s : State) : Host.Outcome State Fault Refusal :=
  .next (s.setReg x kk)

/-- `7xkk` ADD Vx, kk: modulo 256, VF not written as a flag (R131). -/
def execAddImm (x : Nibble) (kk : Byte) (s : State) : Host.Outcome State Fault Refusal :=
  .next (s.setReg x (s.reg x + kk))

/-- `Annn` LD I, nnn (R132; log entry 8). -/
def execLdI (nnn : Addr) (s : State) : Host.Outcome State Fault Refusal :=
  .next (s.setI (addrOperand nnn))

end Sys2Proof.Machine
end

