-- ==== Sys2Proof/Machine/IndexMemory.lean ====
section
/-! DEFINITION. ADD I,Vx; LD F,Vx; LD B,Vx; LD [I],Vx; LD Vx,[I] (spec/46_index_memory.md). The three that touch memory
test their whole range before they write anything (R59, R199); none changes `I` by its access. -/

namespace Sys2Proof.Machine

/-- `Fx1E` ADD I, Vx: modulo 2^16, no flag (R200). -/
def execAddI (x : Nibble) (s : State) : Host.Outcome State Fault Refusal :=
  .next (s.setI (s.i + s.regExtended x))

/-- `Fx29` LD F, Vx: `I` to the glyph of the digit in the low four bits of Vx (R201). -/
def execLdF (x : Nibble) (s : State) : Host.Outcome State Fault Refusal :=
  .next (s.setI (glyphAddr (s.reg x)))

/-- `Fx33` LD B, Vx: the three decimal digits of Vx at I, I+1, I+2 (R202). -/
def execLdB (x : Nibble) (s : State) : Host.Outcome State Fault Refusal :=
  if s.outOfRange 2 then .next (s.raiseFault .faultMemRange)
  else .next (s.storeBytes (s.effAddr 0) (bcdDigits (s.reg x)))

/-- `Fx55` LD [I], Vx: V0 to Vx at I, I+1, ... (R203). -/
def execStoreRegs (x : Nibble) (s : State) : Host.Outcome State Fault Refusal :=
  if s.outOfRange x.toNat then .next (s.raiseFault .faultMemRange)
  else .next (s.storeBytes (s.effAddr 0) (s.regsUpTo x))

/-- `Fx65` LD Vx, [I]: V0 to Vx from I, I+1, ... (R204). -/
def execLoadRegs (x : Nibble) (s : State) : Host.Outcome State Fault Refusal :=
  if s.outOfRange x.toNat then .next (s.raiseFault .faultMemRange)
  else .next (s.setRegs (loadInto s.mem (s.effAddr 0) (x.toNat + 1) s.v))

end Sys2Proof.Machine
end

