-- ==== Sys2Proof/Machine/KeysTimers.lean ====
section
/-! DEFINITION. SKP, SKNP, LD Vx,K, LD Vx,DT, LD DT,Vx, LD ST,Vx (spec/45_keys_timers.md). -/

namespace Sys2Proof.Machine

/-- `Ex9E` SKP Vx: skip if the environment answers that the key of the whole byte `V[x]` is down, a free value (R185;
log entry 1). -/
def execSkp (x : Nibble) (s : State) : Host.Outcome State Fault Refusal :=
  .next (s.tookKeyDown.skipIf (Config.keyDown s.keyDownIx (s.reg x)))

/-- `ExA1` SKNP Vx: skip if it answers that the key is not down (R186; log entry 1). -/
def execSknp (x : Nibble) (s : State) : Host.Outcome State Fault Refusal :=
  .next (s.tookKeyDown.skipIf (!Config.keyDown s.keyDownIx (s.reg x)))

/-- `Fx0A` for the answer `e` of `KeyEvent()`: with none, PC goes back to the instruction, which repeats; else the code
is stored whole (R187). -/
def State.keyEventInto (s : State) (e : Option Byte) (x : Nibble) : State :=
  match e with
  | none => s.setPc (s.pc - 2)
  | some code => s.setReg x code

/-- `Fx0A` LD Vx, K: wait for a key by repetition, the answer a free value (R187; log entry 1). -/
def execLdVxK (x : Nibble) (s : State) : Host.Outcome State Fault Refusal :=
  .next (s.tookKeyEvent.keyEventInto (Config.keyEvent s.keyEventIx) x)

/-- `Fx07` LD Vx, DT (R189). -/
def execLdVxDT (x : Nibble) (s : State) : Host.Outcome State Fault Refusal :=
  .next (s.setReg x s.dt)

/-- `Fx15` LD DT, Vx (R190). -/
def execLdDTVx (x : Nibble) (s : State) : Host.Outcome State Fault Refusal :=
  .next (s.setDT (s.reg x))

/-- `Fx18` LD ST, Vx (R191). -/
def execLdSTVx (x : Nibble) (s : State) : Host.Outcome State Fault Refusal :=
  .next (s.setST (s.reg x))

end Sys2Proof.Machine
end

