-- ==== Sys2Proof/Machine/Random.lean ====
section
/-! DEFINITION. RND Vx,kk (spec/43_random.md). -/

namespace Sys2Proof.Machine

/-- `V[x] <- r and kk` for the answer `r` of `RandByte()` (R160). -/
def State.rndWith (s : State) (r : Byte) (x : Nibble) (kk : Byte) : State := s.setReg x (r &&& kk)

/-- `Cxkk` RND Vx, kk: the next answer of the random source, a free value, masked (R160, R161; log entry 1). -/
def execRnd (x : Nibble) (kk : Byte) (s : State) : Host.Outcome State Fault Refusal :=
  .next (s.tookRand.rndWith (Config.randByte s.randIx) x kk)

end Sys2Proof.Machine
end

