-- ==== Sys2Proof/Machine/Sprite.lean ====
section
/-! DEFINITION. CLS and DRW, the sprite engine (spec/44_display.md). -/

namespace Sys2Proof.Machine

/-- Display byte `k`. Instructions use it for indices up to 255 only (R62). -/
def dispByte (d : Display) (k : Nat) : Byte := d[k]?.getD 0

/-- `00E0` CLS: every display byte to 0 (R165). -/
def execCls (s : State) : Host.Outcome State Fault Refusal :=
  .next (s.setDisp (Vector.replicate Config.dispBytes 0))

/-- The display as a draw leaves it so far, and whether a set pixel has been cleared. -/
structure Canvas where
  disp : Display
  hit : Bool
deriving DecidableEq, Repr

/-- One display byte XORed with a mask, a collision recorded (R166, R167). -/
def Canvas.xorByte (c : Canvas) (idx : Nat) (mask : Byte) : Canvas :=
  let before := dispByte c.disp idx
  let after := before ^^^ mask
  { disp := c.disp.setIfInBounds idx after, hit := c.hit || collided before after }

/-- One row of the sprite, its byte `sprite` at display byte `idx` and bit offset `off`: the left part always, the part
spilled into the next byte only when there is one in this row (R166, R168(b)). -/
def Canvas.row (c : Canvas) (idx col off : Nat) (sprite : Byte) : Canvas :=
  let c1 := c.xorByte idx (sprite >>> off)
  if off ≠ 0 ∧ col ≠ 7 then c1.xorByte (idx + 1) (sprite <<< (8 - off)) else c1

/-- Rows 0 to `m - 1` of the sprite at `base` in memory, in order (R166). -/
def Canvas.rows (mem : Mem) (base ys col off : Nat) : Nat → Canvas → Canvas
  | 0, c => c
  | r + 1, c => (Canvas.rows mem base ys col off r c).row ((ys + r) * 8 + col) col off (memRead mem (base + r))

/-- The byte column of the start: `xs >> 3` (R166). -/
def startCol (xs : Byte) : Nat := xs.toNat / 8

/-- The bit offset in that byte: `xs and 7` (R166). -/
def startOff (xs : Byte) : Nat := xs.toNat % 8

/-- `m`, how many rows are drawn: none when the start column is off the screen, else those on it (R166, R168). -/
def rowsDrawn (xs ys : Byte) (n : Nibble) : Nat :=
  if startCol xs ≥ 8 then 0 else min n.toNat (32 - ys.toNat)

/-- The drawing itself, for coordinates sampled before VF is cleared (R169, R170): VF ends as the collision flag. -/
def State.drawAt (s : State) (xs ys : Byte) (n : Nibble) : State :=
  let c := Canvas.rows s.mem (s.effAddr 0) ys.toNat (startCol xs) (startOff xs) (rowsDrawn xs ys n) ⟨s.disp, false⟩
  (s.setDisp c.disp).setVF (flagByte c.hit)

/-- The draw would read a sprite row above 0xFFF (R59, R166, R171): no check when no row is drawn. -/
def State.drawOutOfRange (s : State) (xs ys : Byte) (n : Nibble) : Bool :=
  decide (rowsDrawn xs ys n > 0) && s.outOfRange (rowsDrawn xs ys n - 1)

/-- `Dxyn` DRW Vx, Vy, n (R166 to R171). -/
def execDrw (x y n : Nibble) (s : State) : Host.Outcome State Fault Refusal :=
  if s.drawOutOfRange (s.reg x) (s.reg y) n then .next (s.raiseFault .faultMemRange)
  else .next (s.drawAt (s.reg x) (s.reg y) n)

/-- Pixel `(x, y)`: bit `7 - x mod 8` of display byte `y * 8 + x div 8` (R33). -/
def pixelOf (d : Display) (x y : Nat) : Bool := (dispByte d (y * 8 + x / 8)).getLsbD (7 - x % 8)

end Sys2Proof.Machine
end

