-- ==== Sys2Proof/Machine/Unrecognised.lean ====
section
/-! DEFINITION. The fall-through no-op (spec/47_unrecognised.md). -/

namespace Sys2Proof.Machine

/-- Every unrecognised word: nothing but the fetch's advance, which has been made; no field is interpreted (R220). -/
def execNop (_word : Word) (s : State) : Host.Outcome State Fault Refusal := .next s

end Sys2Proof.Machine
end

