-- ==== Sys2Proof/Machine/Fetch.lean ====
section
/-! DEFINITION. Fetching, and the step's algorithm around the execution of an instruction (spec/60_exceptions.md R230).
It stands here, with the execution as an argument, so that Step.lean only applies it to `exec`. -/

namespace Sys2Proof.Machine

/-- The two bytes at PC do not both lie in memory: `PC > 0xFFE` (R61, R231). -/
def State.pcPastTop (s : State) : Bool := decide (s.pc.toNat > 0xFFE)

/-- `MemRead(PC, 2)`, big-endian (R56, R230 S2). -/
def State.fetchWord (s : State) : Word := bigEndian (s.byteAt s.pc.toNat) (s.byteAt (s.pc.toNat + 1))

/-- `Step` (R230): a stopped core stays as it is (S0, R239); past the top of memory it halts without a fetch (S1, R231);
else fetch (S2), advance PC (S3), decode (S4), execute (S5). -/
def stepWith (ex : Instr → State → Host.Outcome State Fault Refusal) (s : State) : Host.Outcome State Fault Refusal :=
  if s.status ≠ .running then .next s
  else if s.pcPastTop then .next (s.halt .haltPcTop)
  else ex (decodeWord s.fetchWord) s.advance

/-- An instruction's word placed where the next step fetches it: two bytes at PC, big-endian (R81; log entry 7). -/
def State.placeWord (s : State) (op : Word) : State := s.storeBytes s.pc.toNat [highByte op, lowByte op]

end Sys2Proof.Machine
end

