-- ==== Sys2Proof/Machine/Step.lean ====
section
/-! DEFINITION. The core's one action (spec/60_exceptions.md R230). -/

namespace Sys2Proof.Machine

/-- `Step` (R230): `stepWith` of Machine/Fetch.lean, applied to `exec`. -/
def step (s : State) : Host.Outcome State Fault Refusal := stepWith exec s

/-- The state with the instruction of `decodeTableWord nbits w` placed at PC (log entry 7). -/
def State.withFetchWord (s : State) (nbits w : Nat) : State := s.placeWord (tableWord nbits w)

end Sys2Proof.Machine
end

