-- ==== Sys2Proof/Machine/Listing.lean ====
section
/-! DEFINITION. The textual form of an instruction (spec/30_encoding.md R95): the document's Decoder, which fails on the
words the machine executes as no-ops (R96). It has no effect on execution (log entry 10). -/

namespace Sys2Proof.Machine

/-- An upper-case hexadecimal digit. -/
def hexDigit (n : Nibble) : Char := ['0', '1', '2', '3', '4', '5', '6', '7', '8', '9', 'A', 'B', 'C', 'D', 'E', 'F'].getD n.toNat '0'

/-- One digit, for a row count `n`. -/
def hex1 (n : Nibble) : String := String.ofList [hexDigit n]

/-- Exactly two digits, for a byte `kk`. -/
def hex2 (b : Byte) : String := String.ofList [hexDigit (b.extractLsb' 4 4), hexDigit (b.extractLsb' 0 4)]

/-- Exactly three digits, for an address `nnn`. -/
def hex3 (a : Addr) : String :=
  String.ofList [hexDigit (a.extractLsb' 8 4), hexDigit (a.extractLsb' 4 4), hexDigit (a.extractLsb' 0 4)]

/-- A register: `V` and a digit. -/
def regName (r : Nibble) : String := "V" ++ hex1 r

/-- The listing of an instruction; none for an unrecognised word (R95, R96). -/
def listing : Instr → Option String
  | .cls => some "CLS"
  | .ret => some "RET"
  | .jp nnn => some ("JP " ++ hex3 nnn)
  | .call nnn => some ("CALL " ++ hex3 nnn)
  | .seImm x kk => some ("SE " ++ regName x ++ ", " ++ hex2 kk)
  | .sneImm x kk => some ("SNE " ++ regName x ++ ", " ++ hex2 kk)
  | .seReg x y => some ("SE " ++ regName x ++ ", " ++ regName y)
  | .ldImm x kk => some ("LD " ++ regName x ++ ", " ++ hex2 kk)
  | .addImm x kk => some ("ADD " ++ regName x ++ ", " ++ hex2 kk)
  | .ldReg x y => some ("LD " ++ regName x ++ ", " ++ regName y)
  | .orReg x y => some ("OR " ++ regName x ++ ", " ++ regName y)
  | .andReg x y => some ("AND " ++ regName x ++ ", " ++ regName y)
  | .xorReg x y => some ("XOR " ++ regName x ++ ", " ++ regName y)
  | .addReg x y => some ("ADD " ++ regName x ++ ", " ++ regName y)
  | .subReg x y => some ("SUB " ++ regName x ++ ", " ++ regName y)
  | .shr x _ => some ("SHR " ++ regName x)
  | .subnReg x y => some ("SUBN " ++ regName x ++ ", " ++ regName y)
  | .shl x _ => some ("SHL " ++ regName x)
  | .sneReg x y => some ("SNE " ++ regName x ++ ", " ++ regName y)
  | .ldI nnn => some ("LD I, " ++ hex3 nnn)
  | .jpV0 nnn => some ("JP V0, " ++ hex3 nnn)
  | .rnd x kk => some ("RND " ++ regName x ++ ", " ++ hex2 kk)
  | .drw x y n => some ("DRW " ++ regName x ++ ", " ++ regName y ++ ", " ++ hex1 n)
  | .skp x => some ("SKP " ++ regName x)
  | .sknp x => some ("SKNP " ++ regName x)
  | .ldVxDT x => some ("LD " ++ regName x ++ ", DT")
  | .ldVxK x => some ("LD " ++ regName x ++ ", K")
  | .ldDTVx x => some ("LD DT, " ++ regName x)
  | .ldSTVx x => some ("LD ST, " ++ regName x)
  | .addI x => some ("ADD I, " ++ regName x)
  | .ldF x => some ("LD F, " ++ regName x)
  | .ldB x => some ("LD B, " ++ regName x)
  | .storeRegs x => some ("LD [I], " ++ regName x)
  | .loadRegs x => some ("LD " ++ regName x ++ ", [I]")
  | .nop _ => none

end Sys2Proof.Machine
end

