-- ==== Sys2Proof/Machine/Environment.lean ====
section
/-! DEFINITION. The environment: what it may do to the block between two steps (spec/00_scope.md R7) and what it may
read (R8). None of it happens inside a step (R5; log entry 6). -/

namespace Sys2Proof.Machine

/-- A timer counts down to 0 and stops there (R250). -/
def tickDown (b : Byte) : Byte := if b = 0 then 0 else b - 1

/-- `TimerTick()`: both timers, nothing else, in any status (R250, R239). -/
def timerTick (s : State) : State := (s.setDT (tickDown s.dt)).setST (tickDown s.st)

/-- `SetDT(v)` (R251; a liberty a conforming environment does not take, log entry 13). -/
def setDelayTimer (b : Byte) (s : State) : State := s.setDT b

/-- `SetST(v)` (R251; a liberty a conforming environment does not take, log entry 13). -/
def setSoundTimer (b : Byte) (s : State) : State := s.setST b

/-- `Reset()`: every piece of the block's state at its reset value, in any status (R270, R271). The model's counters of
taken draws go on, so that a second run does not see the first one's draws again (R161; log entry 2). -/
def resetBlock (s : State) : State :=
  { State.reset with randIx := s.randIx, keyDownIx := s.keyDownIx, keyEventIx := s.keyEventIx }

/-- What the environment is told by `Load` (R275). -/
inductive LoadAnswer where
  | accepted
  | rejected
deriving DecidableEq, Repr

/-- Where an image goes: 0x000 in override mode, else 0x200 (R274). -/
def loadBase (overrideReserved : Bool) : Nat := if overrideReserved then 0 else Config.progBase

/-- The image does not fit between its base and the top of memory (R274). -/
def imageTooLarge (bytes : List Byte) (overrideReserved : Bool) : Bool :=
  decide (bytes.length > Config.memSize - loadBase overrideReserved)

/-- `Load(bytes, overrideReserved)`: writes main memory only; an image that does not fit is rejected whole, and memory
stays as it was (R274 to R276). -/
def load (bytes : List Byte) (overrideReserved : Bool) (s : State) : State × LoadAnswer :=
  if imageTooLarge bytes overrideReserved then (s, .rejected)
  else (s.storeBytes (loadBase overrideReserved) bytes, .accepted)

/-! ## Read accessors (R8): none changes the state -/

/-- `ReadPixel(x, y)`; outside the display the call is refused (R172). -/
def readPixel (x y : Nat) (s : State) : Except Refusal Bool :=
  if x < Config.dispW ∧ y < Config.dispH then .ok (pixelOf s.disp x y) else .error (.pixelOutsideDisplay x y)

/-- `PeekNextOpcode()`; with PC above 0xFFE the call is refused (R262). -/
def peekNextOpcode (s : State) : Except Refusal Word :=
  if s.pcPastTop then .error .peekPastTop else .ok s.fetchWord

/-- A byte of main memory (R8); an address above 0xFFF does not exist (R50). -/
def readMemory (a : Nat) (s : State) : Except Refusal Byte :=
  if a < Config.memSize then .ok (s.byteAt a) else .error (.noSuchAddress a)

/-- A byte of the display (R8); an index above 255 does not exist (R32). -/
def readDisplay (k : Nat) (s : State) : Except Refusal Byte :=
  if k < Config.dispBytes then .ok (dispByte s.disp k) else .error (.noSuchDisplayByte k)

/-- The stack's contents in use, the oldest first; its length is the depth (R8, R29). -/
def readStack (s : State) : List Word := s.stack.toList.take s.sp.val

/-! ## Whole runs: steps and environment actions, in the order they happen -/

/-- What can happen to the block: a step of the core, or an action of the environment (R5, R7). DESIGN CHOICE (log entry
13): the model does NOT make R277's assumptions on the environment. `setDT` and `setST`, which R251 and R277 assume a
conforming environment never uses, are events like the others, and `load` and `reset` may come at any point of a run; a
claim that needs a conforming environment says so in a hypothesis on its events. -/
inductive Event where
  | step
  | reset
  | load (bytes : List Byte) (overrideReserved : Bool)
  | timerTick
  | setDT (b : Byte)
  | setST (b : Byte)
deriving DecidableEq, Repr

/-- The block after one event. -/
def happen (e : Event) (s : State) : Host.Outcome State Fault Refusal :=
  match e with
  | .step => step s
  | .reset => .next (resetBlock s)
  | .load bytes overrideReserved => .next (load bytes overrideReserved s).1
  | .timerTick => .next (timerTick s)
  | .setDT b => .next (setDelayTimer b s)
  | .setST b => .next (setSoundTimer b s)

/-- The block after a sequence of events. -/
def happenAll : List Event → State → Host.Outcome State Fault Refusal
  | [], s => .next s
  | e :: es, s =>
    match happen e s with
    | .next t => happenAll es t
    | .fault r => .fault r
    | .refused r => .refused r

end Sys2Proof.Machine
end

