-- ==== Sys2Proof/Safety.lean ====
section
/-! DEFINITION. The terms claims are stated in: the invariants of the machine, what an instruction leaves as it was, and
how a run ends. -/

namespace Sys2Proof.Machine

/-! ## Invariants -/

/-- The status a cause accompanies (R36). -/
def statusOf : Cause → Status
  | .none => .running
  | .haltPcTop | .haltStackEmpty => .halted
  | .faultMemRange | .faultStackOverflow => .fault

/-- Status and cause agree, by the table of R36. -/
abbrev State.CauseFits (s : State) : Prop := s.status = statusOf s.cause

/-- The largest value PC can hold, 0x10FE, is not exceeded, and no stack entry exceeds 0x1000, the largest return
address (R27). -/
abbrev State.PcBounded (s : State) : Prop :=
  s.pc.toNat ≤ 0x10FE ∧ ∀ k : Fin Config.stackDepth, (s.stack[k.val]'k.isLt).toNat ≤ 0x1000

/-- The invariants together: memory is in its canonical form, status and cause agree, PC and the return addresses keep
their bounds. -/
abbrev State.Inv (s : State) : Prop := s.mem.wf = true ∧ s.CauseFits ∧ s.PcBounded

/-! ## Frames -/

/-- What an instruction may write: registers by number, the other pieces of state by name, memory by address (the
columns of the table of R39, the status and cause of R36 together, and the model's three counters of taken draws). -/
structure Footprint where
  regs : List Nibble := []
  index : Bool := false
  pc : Bool := false
  stack : Bool := false
  delay : Bool := false
  sound : Bool := false
  memory : List Nat := []
  display : Bool := false
  status : Bool := false
  rand : Bool := false
  keyDown : Bool := false
  keyEvent : Bool := false
deriving DecidableEq, Repr

/-- `t` differs from `s` in nothing outside the footprint. Every byte of memory is compared, by
address, and every stack entry, stale ones too (log entry 11). -/
def Leaves (f : Footprint) (s t : State) : Prop :=
  (∀ r, r ∉ f.regs → t.reg r = s.reg r) ∧ (f.index = false → t.i = s.i) ∧ (f.pc = false → t.pc = s.pc) ∧
  (f.stack = false → t.stack = s.stack ∧ t.sp = s.sp) ∧ (f.delay = false → t.dt = s.dt) ∧
  (f.sound = false → t.st = s.st) ∧ (∀ a, a ∉ f.memory → t.byteAt a = s.byteAt a) ∧
  (f.display = false → t.disp = s.disp) ∧ (f.status = false → t.status = s.status ∧ t.cause = s.cause) ∧
  (f.rand = false → t.randIx = s.randIx) ∧ (f.keyDown = false → t.keyDownIx = s.keyDownIx) ∧
  (f.keyEvent = false → t.keyEventIx = s.keyEventIx)

/-- The registers V0 to Vx, by number. -/
def regsThrough (x : Nibble) : List Nibble := (List.range (x.toNat + 1)).map (BitVec.ofNat 4)

/-- The addresses of the `count` bytes from `I` on, by the effective address of R199. -/
def State.addrsFromI (s : State) (count : Nat) : List Nat := (List.range count).map s.effAddr

/-- How many sprite rows lie on the screen (R168): none when the start column is off it. -/
def rowsOnScreen (xs ys : Byte) (n : Nibble) : Nat := if xs.toNat ≥ 64 then 0 else min n.toNat (32 - ys.toNat)

/-- Why an instruction stops the core, if it does (R238: each instruction has at most one stopping condition). -/
def stopCause (i : Instr) (s : State) : Option Cause :=
  match i with
  | .ret => if s.sp.val = 0 then some .haltStackEmpty else none
  | .call _ => if s.sp.val = Config.stackDepth then some .faultStackOverflow else none
  | .drw x y n =>
    let m := rowsOnScreen (s.reg x) (s.reg y) n
    if m > 0 ∧ s.i.toNat + m - 1 > 0xFFF then some .faultMemRange else none
  | .ldB _ => if s.i.toNat + 2 > 0xFFF then some .faultMemRange else none
  | .storeRegs x | .loadRegs x => if s.i.toNat + x.toNat > 0xFFF then some .faultMemRange else none
  | .cls | .jp _ | .seImm _ _ | .sneImm _ _ | .seReg _ _ | .ldImm _ _ | .addImm _ _ | .ldReg _ _ | .orReg _ _ => none
  | .andReg _ _ | .xorReg _ _ | .addReg _ _ | .subReg _ _ | .shr _ _ | .subnReg _ _ | .shl _ _ | .sneReg _ _ => none
  | .ldI _ | .jpV0 _ | .rnd _ _ | .skp _ | .sknp _ | .ldVxDT _ | .ldVxK _ | .ldDTVx _ | .ldSTVx _ | .addI _ => none
  | .ldF _ | .nop _ => none

/-- What an instruction that is not stopped writes: its row of the table of R39. -/
def writesOf (i : Instr) (s : State) : Footprint :=
  match i with
  | .cls => { display := true }
  | .ret | .call _ => { pc := true, stack := true }
  | .jp _ | .jpV0 _ | .seImm _ _ | .sneImm _ _ | .seReg _ _ | .sneReg _ _ => { pc := true }
  | .ldImm x _ | .addImm x _ | .ldReg x _ | .orReg x _ | .andReg x _ | .xorReg x _ | .ldVxDT x => { regs := [x] }
  | .addReg x _ | .subReg x _ | .subnReg x _ | .shr x _ | .shl x _ => { regs := [x, 0xF] }
  | .ldI _ | .addI _ | .ldF _ => { index := true }
  | .rnd x _ => { regs := [x], rand := true }
  | .drw _ _ _ => { regs := [0xF], display := true }
  | .skp _ | .sknp _ => { pc := true, keyDown := true }
  | .ldVxK x => { regs := [x], pc := true, keyEvent := true }
  | .ldDTVx _ => { delay := true }
  | .ldSTVx _ => { sound := true }
  | .ldB _ => { memory := s.addrsFromI 3 }
  | .storeRegs x => { memory := s.addrsFromI (x.toNat + 1) }
  | .loadRegs x => { regs := regsThrough x }
  | .nop _ => {}

/-- The registers an instruction reads: the columns of R39 marked r. -/
def readsOf (i : Instr) : List Nibble :=
  match i with
  | .seImm x _ | .sneImm x _ | .addImm x _ | .shr x _ | .shl x _ | .skp x | .sknp x | .ldDTVx x | .ldSTVx x => [x]
  | .addI x | .ldF x | .ldB x => [x]
  | .seReg x y | .sneReg x y | .orReg x y | .andReg x y | .xorReg x y | .addReg x y | .subReg x y => [x, y]
  | .subnReg x y | .drw x y _ => [x, y]
  | .ldReg _ y => [y]
  | .jpV0 _ => [0]
  | .storeRegs x => regsThrough x
  | .cls | .ret | .jp _ | .call _ | .ldImm _ _ | .ldI _ | .rnd _ _ | .ldVxDT _ | .ldVxK _ | .loadRegs _ | .nop _ => []

/-- How each instruction leaves PC, with `pc0` its own address in `s`: the table of R26, in unbounded arithmetic (R27). -/
def pcAfter (i : Instr) (s : State) : Nat :=
  let pc0 := s.pc.toNat
  let skip (c : Bool) : Nat := if c then pc0 + 4 else pc0 + 2
  match i with
  | .jp nnn => nnn.toNat
  | .call nnn => if s.sp.val = Config.stackDepth then pc0 + 2 else nnn.toNat
  | .ret => if h : 0 < s.sp.val then (s.top h).toNat else pc0 + 2
  | .jpV0 nnn => (s.reg 0).toNat + nnn.toNat
  | .seImm x kk => skip (s.reg x == kk)
  | .sneImm x kk => skip (s.reg x != kk)
  | .seReg x y => skip (s.reg x == s.reg y)
  | .sneReg x y => skip (s.reg x != s.reg y)
  | .skp x => skip (Config.keyDown s.keyDownIx (s.reg x))
  | .sknp x => skip (!Config.keyDown s.keyDownIx (s.reg x))
  | .ldVxK _ => if Config.keyEvent s.keyEventIx = none then pc0 else pc0 + 2
  | .cls | .ldImm _ _ | .addImm _ _ | .ldReg _ _ | .orReg _ _ | .andReg _ _ | .xorReg _ _ | .addReg _ _ => pc0 + 2
  | .subReg _ _ | .shr _ _ | .subnReg _ _ | .shl _ _ | .ldI _ | .rnd _ _ | .drw _ _ _ | .ldVxDT _ => pc0 + 2
  | .ldDTVx _ | .ldSTVx _ | .addI _ | .ldF _ | .ldB _ | .storeRegs _ | .loadRegs _ | .nop _ => pc0 + 2

/-- Instructions executed one after the other, without their fetches. -/
def execAll : List Instr → State → Host.Outcome State Fault Refusal
  | [], s => .next s
  | i :: is, s =>
    match exec i s with
    | .next t => execAll is t
    | .fault r => .fault r
    | .refused r => .refused r

/-! ## The sprite, pixel by pixel (R167) -/

/-- Pixel `(px, py)` is one the sprite at `base` in memory inverts, drawn at `(xs, ys)` with `m` rows: it lies in row
`r = py - ys < m` and column `j = px - xs < 8`, and bit `7 - j` of the row's byte is 1. -/
def spriteCovers (mem : Mem) (base xs ys m px py : Nat) : Bool :=
  decide (ys ≤ py ∧ py < ys + m ∧ xs ≤ px ∧ px < xs + 8) && (memRead mem (base + (py - ys))).getLsbD (7 - (px - xs))

/-! ## The end of a run (R278) -/

/-- The run has ended: the core is stopped. -/
def State.ended (s : State) : Bool := s.status != .running

/-- It ended successfully: HALTED. -/
def State.succeeded (s : State) : Bool := s.status == .halted

/-- It ended in error: FAULT; the state is not a result. -/
def State.failed (s : State) : Bool := s.status == .fault

end Sys2Proof.Machine
end

