-- ==== Sys2Proof/Certificates/Slice0/Obligations.lean ====
section
/-! DEFINITION. The statements for the provers. Each docstring names the rule of spec/ it formalises; where a rule rests on
a decision of spec/92_eei_decisions.md or on a choice of the model's, the docstring says which. "Answers a next state" is
the conclusion of every statement about an instruction. At `exec`, PC has had the fetch's advance (R25). A frame
(`Leaves`) compares every entry of the stack, the stale ones too, and every address, those above 0xFFF too: that these
have values to compare is the model's choice, log entry 11. -/

open Sys2Proof Sys2Proof.Machine

/-! ## Encoding -/

/-- Decoding the bytes of a well-formed instruction gives it back, whatever bytes follow (R82, R83, R85; the map R86 to
R88 rests on D10, D11, D20). For the no-op it holds because `nop` carries its word, the model's choice (log entry 11). -/
def Obligations.EncodeThenDecodeGivesTheInstruction : Prop :=
  ∀ (i : Instr) (rest : List Byte), wellFormed i = true → decode (encodeBytes i ++ rest) = .ok (i, rest)

/-- Every word is an instruction's word: it decodes to a well-formed instruction that encodes to it (R80, R85; that a
word no pattern selects is the no-op is R220). For those words the way back is the MODEL'S CHOICE (log entry 11): the
spec's no-op has no operand, the model's `nop` carries its word. -/
def Obligations.EveryWordIsTheWordOfItsInstruction : Prop :=
  ∀ op : Word, encode (decodeWord op) = op ∧ wellFormed (decodeWord op) = true

/-- Words written out from the patterns of R86 to R88 and R220 decode to what the patterns say: a sanity check. That the
no-op of the last one carries its word is the MODEL'S CHOICE (log entry 11). -/
def Obligations.DecodedWordsWrittenOut : Prop :=
  decodeWord 0b0000000011100000 = .cls ∧ decodeWord 0b0000000011101110 = .ret ∧
  decodeWord 0b0010001100000100 = .call 0x304 ∧ decodeWord 0b0110101000000111 = .ldImm 0xA 0x07 ∧
  decodeWord 0b1000101010110100 = .addReg 0xA 0xB ∧ decodeWord 0b1100001100001111 = .rnd 0x3 0x0F ∧
  decodeWord 0b1101000100100101 = .drw 0x1 0x2 0x5 ∧ decodeWord 0b1110001010011110 = .skp 0x2 ∧
  decodeWord 0b1111000101010101 = .storeRegs 0x1 ∧ decodeWord 0b0000111111111111 = .nop 0x0FFF

/-- The words that are no-ops are exactly those R221 lists, family by family. That the no-op of a word is the term with
that word is the model's choice (log entry 11). -/
def Obligations.NoOpsAreExactlyTheWordsListed : Prop :=
  ∀ op : Word, decodeWord op = .nop op ↔
    (fieldT op = 0x0 ∧ op ≠ 0x00E0 ∧ op ≠ 0x00EE) ∨ (fieldT op = 0x5 ∧ fieldN op ≠ 0) ∨
    (fieldT op = 0x8 ∧ fieldN op ∈ [0x8, 0x9, 0xA, 0xB, 0xC, 0xD, 0xF]) ∨ (fieldT op = 0x9 ∧ fieldN op ≠ 0) ∨
    (fieldT op = 0xE ∧ fieldKK op ∉ [0x9E, 0xA1]) ∨
    (fieldT op = 0xF ∧ fieldKK op ∉ [0x07, 0x0A, 0x15, 0x18, 0x1E, 0x29, 0x33, 0x55, 0x65])

/-- No word selects two rows of the opcode map: the patterns are pairwise disjoint (R85; D20). -/
def Obligations.NoWordSelectsTwoRows : Prop :=
  ∀ op : Word, ∀ a ∈ opcodeRows, ∀ b ∈ opcodeRows, selects op a = true → selects op b = true → a = b

/-- The document's Decoder fails on exactly the words the engine executes as no-ops, and the difference has no effect on
execution (R96). That such a word has no listing is the MODEL'S CHOICE (log entry 10): R96 lets a disassembler print
nothing or a marker; the listings of the others rest on R95's general knowledge (log entry 10). -/
def Obligations.StrictDecoderFailsWhereTheEngineDoesNothing : Prop :=
  ∀ op : Word,
    (recognised op = true → decodeStrict op = .ok (decodeWord op) ∧ (listing (decodeWord op)).isSome = true) ∧
    (recognised op = false → decodeStrict op = .error (.unknownInstruction op) ∧ listing (decodeWord op) = none ∧
      ∀ s, ∃ t, exec (decodeWord op) s = .next t ∧ Leaves {} s t)

/-! ## The step (R230; its form is decision D2, its threshold D4, the sticky stop D3) -/

/-- When the two bytes at PC decode to `i`, a running core's step is `exec` of `i` on the state whose PC is two more. -/
def Obligations.StepRunsTheDecodedInstruction : Prop :=
  ∀ (s : State) (i : Instr), s.status = .running → s.pc.toNat ≤ 0xFFE →
    decode [s.byteAt s.pc.toNat, s.byteAt (s.pc.toNat + 1)] = .ok (i, []) → step s = exec i (s.setPc (s.pc + 2))

/-- A step begun with PC above 0xFFE halts with HALT_PC_TOP and changes nothing else, PC included (R231). -/
def Obligations.StepPastTheTopHalts : Prop :=
  ∀ s : State, s.status = .running → s.pc.toNat > 0xFFE →
    ∃ t, step s = .next t ∧ t.status = .halted ∧ t.cause = .haltPcTop ∧ Leaves { status := true } s t

/-- A stopped core's step changes nothing (R239). -/
def Obligations.StoppedCoreStaysAsItIs : Prop :=
  ∀ s : State, s.status ≠ .running → step s = .next s

/-- Every state has a next state, and so has every instruction in every state: the machine is never stuck (spec/93,
after its part 1; R230 is total). -/
def Obligations.EveryStateHasANextState : Prop :=
  (∀ s : State, ∃ t, step s = .next t) ∧ ∀ (i : Instr) (s : State), ∃ t, exec i s = .next t

/-- The word placed where the next step fetches is the one that step runs (R81; the placing is the model's, log entry 7). -/
def Obligations.PlacedWordIsTheOneRun : Prop :=
  ∀ (s : State) (op : Word), s.status = .running → s.pc.toNat ≤ 0xFFE →
    step (s.withFetchWord 16 op.toNat) = exec (decodeWord op) ((s.withFetchWord 16 op.toNat).setPc (s.pc + 2))

/-- PC after a step, for every instruction, as the table of R26 has it and without any modulo (R27). It rests on D5, D6,
D21, D34 and, for the keys, on the free values of log entry 1. -/
def Obligations.PcAfterAStepIsTheTables : Prop :=
  ∀ s t : State, s.status = .running → s.pc.toNat ≤ 0xFFE → step s = .next t →
    t.pc.toNat = pcAfter (decodeWord s.fetchWord) s

/-! ## Control flow -/

/-- RET pops the top entry into PC, unmasked (R110, R16; D34). That the popped entry, stale afterwards, keeps its value
(within `t.stack = s.stack`) is the MODEL'S CHOICE (log entry 11): R29 lets a model drop stale entries. -/
def Obligations.RetPopsTheTopIntoPc : Prop :=
  ∀ s : State, 0 < s.sp.val →
    ∃ t, exec .ret s = .next t ∧ s.stack.toList[s.sp.val - 1]? = some t.pc ∧ t.sp.val + 1 = s.sp.val ∧
      t.stack = s.stack ∧ Leaves { pc := true, stack := true } s t

/-- A step that runs RET with an empty stack halts: status HALTED, cause HALT_STACK_EMPTY, PC two on, nothing else
(R232). -/
def Obligations.RetOnEmptyStackHalts : Prop :=
  ∀ s : State, s.status = .running → s.pc.toNat ≤ 0xFFE → decodeWord s.fetchWord = .ret → s.sp.val = 0 →
    ∃ t, step s = .next t ∧ t.status = .halted ∧ t.cause = .haltStackEmpty ∧ t.pc.toNat = s.pc.toNat + 2 ∧
      t.sp.val = 0 ∧ Leaves { pc := true, status := true } s t

/-- JP goes to `nnn`, JP V0 to `V[0] + nnn`, not reduced to 12 bits (R111, R113; D34). -/
def Obligations.JumpsGoToTheirTargets : Prop :=
  ∀ (nnn : Addr) (s : State),
    (∃ t, exec (.jp nnn) s = .next t ∧ t.pc.toNat = nnn.toNat ∧ Leaves { pc := true } s t) ∧
    (∃ t, exec (.jpV0 nnn) s = .next t ∧ t.pc.toNat = (s.reg 0).toNat + nnn.toNat ∧ Leaves { pc := true } s t)

/-- CALL with a free entry pushes PC and jumps; the entries below are as before (R112; the capacity is D5, log entry
4). That the stale entries above the pushed one are as before too is the MODEL'S CHOICE (log entry 11). -/
def Obligations.CallPushesPcAndJumps : Prop :=
  ∀ (nnn : Addr) (s : State), s.sp.val < 16 →
    ∃ t, exec (.call nnn) s = .next t ∧ t.pc.toNat = nnn.toNat ∧ t.sp.val = s.sp.val + 1 ∧
      t.stack.toList[s.sp.val]? = some s.pc ∧
      (∀ k, k < 16 → k ≠ s.sp.val → t.stack.toList[k]? = s.stack.toList[k]?) ∧
      Leaves { pc := true, stack := true } s t

/-- CALL with sixteen entries in use faults and pushes nothing (R112, R235; D5, log entry 4). -/
def Obligations.CallOnFullStackFaults : Prop :=
  ∀ (nnn : Addr) (s : State), s.sp.val = 16 →
    ∃ t, exec (.call nnn) s = .next t ∧ t.status = .fault ∧ t.cause = .faultStackOverflow ∧ Leaves { status := true } s t

/-- The four compare-and-skip instructions move PC on by two exactly when their condition holds (R114 to R117). -/
def Obligations.SkipsMovePcWhenTheirConditionHolds : Prop :=
  ∀ (x y : Nibble) (kk : Byte) (s : State),
    (∃ t, exec (.seImm x kk) s = .next t ∧ t.pc = (if s.reg x = kk then s.pc + 2 else s.pc) ∧
      Leaves { pc := true } s t) ∧
    (∃ t, exec (.sneImm x kk) s = .next t ∧ t.pc = (if s.reg x = kk then s.pc else s.pc + 2) ∧
      Leaves { pc := true } s t) ∧
    (∃ t, exec (.seReg x y) s = .next t ∧ t.pc = (if s.reg x = s.reg y then s.pc + 2 else s.pc) ∧
      Leaves { pc := true } s t) ∧
    (∃ t, exec (.sneReg x y) s = .next t ∧ t.pc = (if s.reg x = s.reg y then s.pc else s.pc + 2) ∧
      Leaves { pc := true } s t)

/-- Nested calls and as many returns bring PC and SP back, as long as the stack has room, and touch nothing but the
stack's stale entries (R118, derived there; the room is D5, log entry 4). -/
def Obligations.NestedCallsAndReturnsComeBack : Prop :=
  ∀ (targets : List Addr) (s : State), s.sp.val + targets.length ≤ 16 →
    ∃ t, execAll (targets.map Instr.call ++ List.replicate targets.length Instr.ret) s = .next t ∧
      t.pc = s.pc ∧ t.sp = s.sp ∧
      (∀ k, k < s.sp.val → t.stack.toList[k]? = s.stack.toList[k]?) ∧ Leaves { stack := true } s t

/-! ## Immediates -/

/-- LD Vx, kk loads the byte; ADD Vx, kk adds modulo 256 and writes no flag (R130, R131). -/
def Obligations.ImmediateLoadAndAdd : Prop :=
  ∀ (x : Nibble) (kk : Byte) (s : State),
    (∃ t, exec (.ldImm x kk) s = .next t ∧ t.reg x = kk ∧ Leaves { regs := [x] } s t) ∧
    (∃ t, exec (.addImm x kk) s = .next t ∧ (t.reg x).toNat = ((s.reg x).toNat + kk.toNat) % 256 ∧
      Leaves { regs := [x] } s t)

/-- LD I, nnn zero-extends the address (R132, which the spec supplies from general knowledge, D10, log entry 8). -/
def Obligations.LoadIndexZeroExtends : Prop :=
  ∀ (nnn : Addr) (s : State), ∃ t, exec (.ldI nnn) s = .next t ∧ t.i.toNat = nnn.toNat ∧ Leaves { index := true } s t

/-! ## The register ALU -/

/-- LD, OR, AND and XOR write Vx bit by bit and leave VF alone unless it is Vx (R142 to R145). -/
def Obligations.LogicalInstructionsWriteOnlyVx : Prop :=
  ∀ (x y : Nibble) (s : State),
    (∃ t, exec (.ldReg x y) s = .next t ∧ t.reg x = s.reg y ∧ Leaves { regs := [x] } s t) ∧
    (∃ t, exec (.orReg x y) s = .next t ∧
      (∀ k, (t.reg x).getLsbD k = ((s.reg x).getLsbD k || (s.reg y).getLsbD k)) ∧ Leaves { regs := [x] } s t) ∧
    (∃ t, exec (.andReg x y) s = .next t ∧
      (∀ k, (t.reg x).getLsbD k = ((s.reg x).getLsbD k && (s.reg y).getLsbD k)) ∧ Leaves { regs := [x] } s t) ∧
    (∃ t, exec (.xorReg x y) s = .next t ∧
      (∀ k, (t.reg x).getLsbD k = ((s.reg x).getLsbD k ^^ (s.reg y).getLsbD k)) ∧ Leaves { regs := [x] } s t)

/-- ADD Vx, Vy: the sum modulo 256 in Vx, and VF is 1 exactly when the sum exceeds 255, for every x and y, x = 0xF too,
where only the flag remains (R146). -/
def Obligations.AddSetsTheCarryFlag : Prop :=
  ∀ (x y : Nibble) (s : State),
    ∃ t, exec (.addReg x y) s = .next t ∧
      t.reg 0xF = (if (s.reg x).toNat + (s.reg y).toNat > 255 then 1 else 0) ∧
      (x ≠ 0xF → (t.reg x).toNat = ((s.reg x).toNat + (s.reg y).toNat) % 256) ∧ Leaves { regs := [x, 0xF] } s t

/-- SUB and SUBN: the difference modulo 256 in Vx, and VF is 1 exactly when there is no borrow, equality included
(R147, R149; D12, D13). -/
def Obligations.SubtractionsSetTheNoBorrowFlag : Prop :=
  ∀ (x y : Nibble) (s : State),
    (∃ t, exec (.subReg x y) s = .next t ∧
      t.reg 0xF = (if (s.reg x).toNat ≥ (s.reg y).toNat then 1 else 0) ∧
      (x ≠ 0xF → (t.reg x).toNat = ((s.reg x).toNat + 256 - (s.reg y).toNat) % 256) ∧ Leaves { regs := [x, 0xF] } s t) ∧
    (∃ t, exec (.subnReg x y) s = .next t ∧
      t.reg 0xF = (if (s.reg y).toNat ≥ (s.reg x).toNat then 1 else 0) ∧
      (x ≠ 0xF → (t.reg x).toNat = ((s.reg y).toNat + 256 - (s.reg x).toNat) % 256) ∧ Leaves { regs := [x, 0xF] } s t)

/-- SHR and SHL: the bit shifted out goes to VF first, then Vx is shifted in place; of VF itself, SHR leaves 0 and SHL 0
or 2; Vy plays no part (R148, R150; D11, D14). -/
def Obligations.ShiftsMoveTheirBitIntoVFFirst : Prop :=
  ∀ (x y : Nibble) (s : State),
    (∃ t, exec (.shr x y) s = .next t ∧
      (x ≠ 0xF → (t.reg x).toNat = (s.reg x).toNat / 2 ∧ (t.reg 0xF).toNat = (s.reg x).toNat % 2) ∧
      (x = 0xF → t.reg 0xF = 0) ∧ Leaves { regs := [x, 0xF] } s t) ∧
    (∃ t, exec (.shl x y) s = .next t ∧
      (x ≠ 0xF → (t.reg x).toNat = (s.reg x).toNat * 2 % 256 ∧ (t.reg 0xF).toNat = (s.reg x).toNat / 128) ∧
      (x = 0xF → (t.reg 0xF).toNat = 2 * ((s.reg x).toNat / 128)) ∧ Leaves { regs := [x, 0xF] } s t)

/-! ## Random -/

/-- RND: Vx is the next answer of the random source, whatever it is, masked bit by bit; one answer is taken and no other
instruction's draw is touched (R160, R161; the answers are the free value of log entry 1, the counter is log entry 2). -/
def Obligations.RndMasksTheNextAnswer : Prop :=
  ∀ (x : Nibble) (kk : Byte) (s : State),
    ∃ t, exec (.rnd x kk) s = .next t ∧
      (∀ k, (t.reg x).getLsbD k = ((Config.randByte s.randIx).getLsbD k && kk.getLsbD k)) ∧
      t.randIx = s.randIx + 1 ∧ Leaves { regs := [x], rand := true } s t

/-! ## Display -/

/-- CLS turns every display byte to 0 and every pixel off, and nothing else (R165). -/
def Obligations.ClsTurnsEveryPixelOff : Prop :=
  ∀ s : State, ∃ t, exec .cls s = .next t ∧ (∀ k, k < 256 → readDisplay k t = .ok 0) ∧
    (∀ x y, x < 64 → y < 32 → readPixel x y t = .ok false) ∧ Leaves { display := true } s t

/-- DRW inverts exactly the pixels the sprite covers on the screen, and VF is 1 exactly when one of them was on (R166 to
R168; that VF is cleared first is D15, the coordinates' sampling D16, the range check D7). -/
def Obligations.DrawInvertsCoveredPixelsAndReportsCollision : Prop :=
  ∀ (x y n : Nibble) (s : State),
    rowsOnScreen (s.reg x) (s.reg y) n = 0 ∨ s.i.toNat + rowsOnScreen (s.reg x) (s.reg y) n ≤ 0x1000 →
    ∃ t, exec (.drw x y n) s = .next t ∧
      (∀ px py, px < 64 → py < 32 → pixelOf t.disp px py = (pixelOf s.disp px py ^^
        spriteCovers s.mem s.i.toNat (s.reg x).toNat (s.reg y).toNat (rowsOnScreen (s.reg x) (s.reg y) n) px py)) ∧
      (t.reg 0xF = 0 ∨ t.reg 0xF = 1) ∧
      (t.reg 0xF = 1 ↔ ∃ px py, px < 64 ∧ py < 32 ∧ pixelOf s.disp px py = true ∧
        spriteCovers s.mem s.i.toNat (s.reg x).toNat (s.reg y).toNat (rowsOnScreen (s.reg x) (s.reg y) n) px py = true) ∧
      Leaves { regs := [0xF], display := true } s t

/-- DRW that would read a sprite row above 0xFFF faults and writes nothing, VF included (R59, R166, R171, R234; D7, D8). -/
def Obligations.DrawPastMemoryFaults : Prop :=
  ∀ (x y n : Nibble) (s : State), 0 < rowsOnScreen (s.reg x) (s.reg y) n →
    s.i.toNat + rowsOnScreen (s.reg x) (s.reg y) n > 0x1000 →
    ∃ t, exec (.drw x y n) s = .next t ∧ t.status = .fault ∧ t.cause = .faultMemRange ∧ Leaves { status := true } s t

/-- DRW with its start off the screen, or with no rows, clears VF and does nothing else, whatever I holds (R168, R169,
R171; D15). -/
def Obligations.DrawWithNothingOnScreenOnlyClearsVF : Prop :=
  ∀ (x y n : Nibble) (s : State), (s.reg x).toNat ≥ 64 ∨ (s.reg y).toNat ≥ 32 ∨ n = 0 →
    ∃ t, exec (.drw x y n) s = .next t ∧ t.reg 0xF = 0 ∧ Leaves { regs := [0xF] } s t

/-- The same sprite drawn twice leaves the display as it was (the source's example S7, for every sprite and every place;
derived from R166 and R167). The registers of the place are not VF, which the first draw writes. -/
def Obligations.DrawingTwiceErases : Prop :=
  ∀ (x y n : Nibble) (s t u : State), x ≠ 0xF → y ≠ 0xF → exec (.drw x y n) s = .next t → exec (.drw x y n) t = .next u →
    u.disp = s.disp

/-! ## Keys and timers -/

/-- SKP and SKNP ask the environment once, with the whole byte of Vx, and skip on its answer (R185, R186, R188; the
answers are the free value of log entry 1, the counter is log entry 2). -/
def Obligations.KeySkipsFollowTheAnswer : Prop :=
  ∀ (x : Nibble) (s : State),
    (∃ t, exec (.skp x) s = .next t ∧
      t.pc = (if Config.keyDown s.keyDownIx (s.reg x) = true then s.pc + 2 else s.pc) ∧
      t.keyDownIx = s.keyDownIx + 1 ∧ Leaves { pc := true, keyDown := true } s t) ∧
    (∃ t, exec (.sknp x) s = .next t ∧
      t.pc = (if Config.keyDown s.keyDownIx (s.reg x) = true then s.pc else s.pc + 2) ∧
      t.keyDownIx = s.keyDownIx + 1 ∧ Leaves { pc := true, keyDown := true } s t)

/-- LD Vx, K with no key event takes PC back to the instruction, so that it repeats, and changes nothing else; with one
it stores the whole code (R187; D21; the answers are the free value of log entry 1, the counter is log entry 2). -/
def Obligations.KeyWaitRepeatsOrStoresTheCode : Prop :=
  ∀ (x : Nibble) (s : State), ∃ t, exec (.ldVxK x) s = .next t ∧ t.keyEventIx = s.keyEventIx + 1 ∧
    match Config.keyEvent s.keyEventIx with
    | none => t.pc = s.pc - 2 ∧ Leaves { pc := true, keyEvent := true } s t
    | some code => t.reg x = code ∧ Leaves { regs := [x], keyEvent := true } s t

/-- Whatever the environment answers: without an event the fetch's advance is undone, so that the state is the one before
the fetch; with one, Vx holds the code and PC keeps the advance (R187; D21). -/
def Obligations.KeyWaitForEveryAnswer : Prop :=
  ∀ (x : Nibble) (s : State), s.advance.keyEventInto none x = s ∧
    ∀ code, (s.advance.keyEventInto (some code) x).reg x = code ∧
      Leaves { regs := [x] } (s.setPc (s.pc + 2)) (s.advance.keyEventInto (some code) x)

/-- LD Vx, DT reads the delay timer; LD DT, Vx and LD ST, Vx set the timers (R189 to R191). -/
def Obligations.TimerInstructionsReadAndSet : Prop :=
  ∀ (x : Nibble) (s : State),
    (∃ t, exec (.ldVxDT x) s = .next t ∧ t.reg x = s.dt ∧ Leaves { regs := [x] } s t) ∧
    (∃ t, exec (.ldDTVx x) s = .next t ∧ t.dt = s.reg x ∧ Leaves { delay := true } s t) ∧
    (∃ t, exec (.ldSTVx x) s = .next t ∧ t.st = s.reg x ∧ Leaves { sound := true } s t)

/-- TimerTick takes one from each timer that is not 0 and leaves one at 0 (R250; that it stops there is D22); SetDT and
SetST write their timer (R251; that they are moves of the model at all is its choice, log entry 13). -/
def Obligations.TimerActionsOfTheEnvironment : Prop :=
  ∀ (b : Byte) (s : State),
    (∃ t, happen .timerTick s = .next t ∧ t.dt.toNat = s.dt.toNat - 1 ∧ t.st.toNat = s.st.toNat - 1 ∧
      Leaves { delay := true, sound := true } s t) ∧
    (∃ t, happen (.setDT b) s = .next t ∧ t.dt = b ∧ Leaves { delay := true } s t) ∧
    (∃ t, happen (.setST b) s = .next t ∧ t.st = b ∧ Leaves { sound := true } s t)

/-- With no LD DT, Vx, no SetDT and no Reset, the delay timer never increases (R252, with the stop at 0 of D22). The
hypothesis on SetDT stands for R277's assumption that a conforming environment never uses it, which the model's events do
not make (log entry 13); Load at any point is the same choice. -/
def Obligations.DelayTimerOnlyCountsDown : Prop :=
  ∀ (e : Event) (s t : State), happen e s = .next t →
    (e = .step → ∀ x, decodeWord s.fetchWord ≠ .ldDTVx x) → (∀ b, e ≠ .setDT b) → e ≠ .reset →
    t.dt.toNat ≤ s.dt.toNat

/-! ## Index and memory -/

/-- ADD I, Vx adds modulo 2^16 and sets no flag (R200; D9). -/
def Obligations.AddToIndexWrapsAtSixteenBits : Prop :=
  ∀ (x : Nibble) (s : State),
    ∃ t, exec (.addI x) s = .next t ∧ t.i.toNat = (s.i.toNat + (s.reg x).toNat) % 65536 ∧ Leaves { index := true } s t

/-- LD F, Vx points I at the glyph of the digit in the low four bits of Vx (R201; D18, log entry 5). -/
def Obligations.FontIndexPointsAtTheGlyph : Prop :=
  ∀ (x : Nibble) (s : State),
    ∃ t, exec (.ldF x) s = .next t ∧ t.i.toNat = fontBase + 5 * ((s.reg x).toNat % 16) ∧ Leaves { index := true } s t

/-- A glyph can always be drawn: after LD F, a DRW of at most five rows never stops the core (R201; D18, log entry 5). -/
def Obligations.DrawingAGlyphNeverFaults : Prop :=
  ∀ (x a b n : Nibble) (s t u : State), n.toNat ≤ 5 → exec (.ldF x) s = .next t → exec (.drw a b n) t = .next u →
    u.status = s.status ∧ u.cause = s.cause

/-- LD B, Vx stores the hundreds, tens and ones of Vx, as numbers, at I, I+1 and I+2 (R202; the order is D17). -/
def Obligations.BcdStoresThreeDigits : Prop :=
  ∀ (x : Nibble) (s : State), s.i.toNat + 2 ≤ 0xFFF →
    ∃ t, exec (.ldB x) s = .next t ∧ (t.byteAt (s.effAddr 0)).toNat = (s.reg x).toNat / 100 ∧
      (t.byteAt (s.effAddr 1)).toNat = (s.reg x).toNat / 10 % 10 ∧
      (t.byteAt (s.effAddr 2)).toNat = (s.reg x).toNat % 10 ∧ Leaves { memory := s.addrsFromI 3 } s t

/-- LD [I], Vx stores V0 to Vx at I, I+1, ... and leaves I and every other byte as they were (R203; D19). -/
def Obligations.BlockStoreWritesV0ToVx : Prop :=
  ∀ (x : Nibble) (s : State), s.i.toNat + x.toNat ≤ 0xFFF →
    ∃ t, exec (.storeRegs x) s = .next t ∧
      (∀ r : Nibble, r.toNat ≤ x.toNat → t.byteAt (s.effAddr r.toNat) = s.reg r) ∧
      Leaves { memory := s.addrsFromI (x.toNat + 1) } s t

/-- LD Vx, [I] loads V0 to Vx from I, I+1, ... and leaves I and every other register as they were (R204; D19). -/
def Obligations.BlockLoadReadsV0ToVx : Prop :=
  ∀ (x : Nibble) (s : State), s.i.toNat + x.toNat ≤ 0xFFF →
    ∃ t, exec (.loadRegs x) s = .next t ∧
      (∀ r : Nibble, r.toNat ≤ x.toNat → t.reg r = s.byteAt (s.effAddr r.toNat)) ∧
      (∀ r : Nibble, r.toNat > x.toNat → t.reg r = s.reg r) ∧ Leaves { regs := regsThrough x } s t

/-- The three memory instructions fault, and write nothing, when the last byte lies above 0xFFF; no address wraps (R59,
R60, R234; D7, D8). -/
def Obligations.MemoryInstructionsPastMemoryFault : Prop :=
  ∀ (x : Nibble) (s : State),
    (s.i.toNat + 2 > 0xFFF → ∃ t, exec (.ldB x) s = .next t ∧ t.status = .fault ∧ t.cause = .faultMemRange ∧
      Leaves { status := true } s t) ∧
    (s.i.toNat + x.toNat > 0xFFF → ∃ t, exec (.storeRegs x) s = .next t ∧ t.status = .fault ∧
      t.cause = .faultMemRange ∧ Leaves { status := true } s t) ∧
    (s.i.toNat + x.toNat > 0xFFF → ∃ t, exec (.loadRegs x) s = .next t ∧ t.status = .fault ∧
      t.cause = .faultMemRange ∧ Leaves { status := true } s t)

/-- Stored bytes are fetched: after LD [I], Vx of two registers or more, the word at I is V0 then V1 (R68, R57; D25). -/
def Obligations.StoredBytesAreFetchedAsAnInstruction : Prop :=
  ∀ (x : Nibble) (s : State), 1 ≤ x.toNat → s.i.toNat + x.toNat ≤ 0xFFF →
    ∃ t, exec (.storeRegs x) s = .next t ∧ (t.setPc s.i).fetchWord = bigEndian (s.reg 0) (s.reg 1)

/-! ## Unrecognised words -/

/-- An unrecognised word changes nothing but PC, larger by 2 after the step; its meaning itself changes nothing (R220). -/
def Obligations.UnrecognisedWordsOnlyAdvancePc : Prop :=
  (∀ (op : Word) (s : State), ∃ t, exec (.nop op) s = .next t ∧ Leaves {} s t) ∧
  ∀ s : State, s.status = .running → s.pc.toNat ≤ 0xFFE → recognised s.fetchWord = false →
    ∃ t, step s = .next t ∧ t.pc.toNat = s.pc.toNat + 2 ∧ Leaves { pc := true } s t

/-! ## The whole machine -/

/-- The exactness principle: an instruction that is not stopped writes what its row of the table of R39 names and nothing
else (R6, R39; D0). -/
def Obligations.InstructionsWriteOnlyWhatTheirRowNames : Prop :=
  ∀ (i : Instr) (s t : State), stopCause i s = none → exec i s = .next t → Leaves (writesOf i s) s t

/-- Halts and faults are precise and their conditions are exactly those of R238: an instruction whose condition holds
writes status and cause and nothing else, every other instruction leaves both alone (R237, R238; D3, D5, D7). -/
def Obligations.StopsArePreciseAndExactlyThese : Prop :=
  ∀ (i : Instr) (s : State),
    (∀ c, stopCause i s = some c → ∃ t, exec i s = .next t ∧ t.status = statusOf c ∧ t.cause = c ∧
      Leaves { status := true } s t) ∧
    (stopCause i s = none → ∃ t, exec i s = .next t ∧ t.status = s.status ∧ t.cause = s.cause)

/-- VF is never read implicitly: an instruction that does not name VF as a register it reads does the same to everything
but VF whatever VF holds, and VF itself it either writes with a value that does not depend on what VF held, or leaves as
it was (R22, R39). -/
def Obligations.VFIsNeverReadImplicitly : Prop :=
  ∀ (i : Instr) (b : Byte) (s t u : State), (0xF : Nibble) ∉ readsOf i → exec i s = .next t →
    exec i (s.setReg 0xF b) = .next u →
    Leaves { regs := [0xF] } t u ∧ (u.reg 0xF = t.reg 0xF ∨ (t.reg 0xF = s.reg 0xF ∧ u.reg 0xF = b))

/-- Every step keeps memory in its canonical form: addresses rising, inside memory, no entry that says what the address
reads as unlisted. The form is the MODEL'S CHOICE of how it holds memory (log entry 11); of the spec is only that the
addresses are 0x000 to 0xFFF (R34, R50). -/
def Obligations.StepKeepsMemoryCanonical : Prop :=
  ∀ s t : State, s.mem.wf = true → step s = .next t → t.mem.wf = true

/-- Every step keeps PC at 0x10FE or below and every stack entry at 0x1000 or below (R27; D34). The bound is on stale
entries too, which the model keeps by its own choice (log entry 11). -/
def Obligations.StepKeepsPcAndReturnAddressesBounded : Prop :=
  ∀ s t : State, s.PcBounded → step s = .next t → t.PcBounded

/-- Every step and every action of the environment keeps the invariants: memory canonical, status and cause agreeing by
the table of R36, PC and return addresses bounded (R27, R36, R239, R276; D3, D33, D34). Memory's canonical form, and the
stale entries among those bounded, are the MODEL'S CHOICE (log entry 11), as is that SetDT, SetST and a late Load are
events at all (log entry 13). -/
def Obligations.EveryEventKeepsTheInvariants : Prop :=
  ∀ (e : Event) (s t : State), s.Inv → happen e s = .next t → t.Inv

/-- The state after reset meets the invariants: status, cause, PC and stack by R38 (D3, D24); memory in its canonical
form by the MODEL'S CHOICE of how it holds memory (log entry 11). -/
def Obligations.ResetMeetsTheInvariants : Prop := State.reset.Inv

/-! ## The environment -/

/-- Reset, from any state: every piece of state at its value of R38, the font at FONT_BASE and zeros elsewhere in memory
(R270, R271; D3, D18, D24, log entry 5). That addresses above 0xFFF, which do not exist, read 0 as well is the MODEL'S
CHOICE (log entry 11). The counters of taken draws go on (log entry 2). -/
def Obligations.ResetGivesEveryStateItsValue : Prop :=
  ∀ s : State, ∃ t, happen .reset s = .next t ∧ (∀ r, t.reg r = 0) ∧ t.i = 0 ∧ t.pc = 0x200 ∧ t.sp.val = 0 ∧
    (∀ k, k < 16 → t.stack.toList[k]? = some 0) ∧ t.dt = 0 ∧ t.st = 0 ∧
    (∀ a, a < 80 → fontData[a]? = some (t.byteAt (fontBase + a))) ∧ (∀ a, fontBase + 80 ≤ a → t.byteAt a = 0) ∧
    (∀ k, k < 256 → readDisplay k t = .ok 0) ∧ t.status = .running ∧ t.cause = .none ∧
    t.randIx = s.randIx ∧ t.keyDownIx = s.keyDownIx ∧ t.keyEventIx = s.keyEventIx

/-- An image that fits is copied to 0x200, or to 0x000 in override mode, and nothing else changes (R274, R276; that PC
does not move is D33). -/
def Obligations.LoadCopiesAnImageThatFits : Prop :=
  ∀ (bytes : List Byte) (overrideReserved : Bool) (s : State),
    bytes.length ≤ 4096 - (if overrideReserved then 0x000 else 0x200) →
    (load bytes overrideReserved s).2 = .accepted ∧
    (∀ k, k < bytes.length →
      bytes[k]? = some ((load bytes overrideReserved s).1.byteAt ((if overrideReserved then 0x000 else 0x200) + k))) ∧
    Leaves { memory := (List.range bytes.length).map ((if overrideReserved then 0x000 else 0x200) + ·) } s
      (load bytes overrideReserved s).1

/-- An image that does not fit is rejected whole, and the environment is told; an empty one is accepted and changes
nothing (R275). -/
def Obligations.LoadRejectsAnImageThatDoesNotFit : Prop :=
  ∀ (bytes : List Byte) (overrideReserved : Bool) (s : State),
    (bytes.length > 4096 - (if overrideReserved then 0x000 else 0x200) →
      load bytes overrideReserved s = (s, .rejected)) ∧
    load [] overrideReserved s = (s, .accepted)

/-- ReadPixel is R172's formula on the display and refuses outside it; PeekNextOpcode is the word the next step fetches
and refuses with PC above 0xFFE (R172, R262; D30, log entry 9). -/
def Obligations.AccessorsAnswerInsideTheirDomainOnly : Prop :=
  ∀ (x y : Nat) (s : State),
    (x < 64 → y < 32 → readPixel x y s = .ok ((dispByte s.disp (y * 8 + x / 8)) &&& (0x80#8 >>> (x % 8)) != 0)) ∧
    (x ≥ 64 ∨ y ≥ 32 → readPixel x y s = .error (.pixelOutsideDisplay x y)) ∧
    (s.pc.toNat ≤ 0xFFE →
      peekNextOpcode s = .ok (bigEndian (s.byteAt s.pc.toNat) (s.byteAt (s.pc.toNat + 1)))) ∧
    (s.pc.toNat > 0xFFE → peekNextOpcode s = .error .peekPastTop)
end

