-- ==== Sys2Proof/Laws/Decode.lean ====
section
/-! SUPPORT. The bits and fields of the words the encoder and the fetch build (spec/30_encoding.md R81 to R83). -/

namespace Sys2Proof

/-! ## Bit by bit -/

theorem bit_bigEndian (hi lo : Byte) (i : Nat) :
    (bigEndian hi lo).getLsbD i = if i < 8 then lo.getLsbD i else hi.getLsbD (i - 8) :=
  BitVec.getLsbD_append

theorem bit_formatA (t : Nibble) (nnn : Addr) (i : Nat) :
    (formatA t nnn).getLsbD i = if i < 12 then nnn.getLsbD i else t.getLsbD (i - 12) :=
  BitVec.getLsbD_append

theorem bit_formatXK (t x : Nibble) (kk : Byte) (i : Nat) :
    (formatXK t x kk).getLsbD i =
      if i < 12 then (if i < 8 then kk.getLsbD i else x.getLsbD (i - 8)) else t.getLsbD (i - 12) :=
  (BitVec.getLsbD_append (x := t) (y := x ++ kk)).trans (by rw [BitVec.getLsbD_append])

theorem bit_formatXYN (t x y n : Nibble) (i : Nat) :
    (formatXYN t x y n).getLsbD i =
      if i < 12 then (if i < 8 then (if i < 4 then n.getLsbD i else y.getLsbD (i - 4)) else x.getLsbD (i - 8))
      else t.getLsbD (i - 12) :=
  (BitVec.getLsbD_append (x := t) (y := x ++ (y ++ n))).trans (by
    rw [BitVec.getLsbD_append (x := x) (y := y ++ n), BitVec.getLsbD_append])

theorem bit_fieldT (op : Word) (i : Nat) : (fieldT op).getLsbD i = (decide (i < 4) && op.getLsbD (12 + i)) := by
  simp [fieldT]
theorem bit_fieldX (op : Word) (i : Nat) : (fieldX op).getLsbD i = (decide (i < 4) && op.getLsbD (8 + i)) := by
  simp [fieldX]
theorem bit_fieldY (op : Word) (i : Nat) : (fieldY op).getLsbD i = (decide (i < 4) && op.getLsbD (4 + i)) := by
  simp [fieldY]
theorem bit_fieldN (op : Word) (i : Nat) : (fieldN op).getLsbD i = (decide (i < 4) && op.getLsbD i) := by
  simp [fieldN]
theorem bit_fieldKK (op : Word) (i : Nat) : (fieldKK op).getLsbD i = (decide (i < 8) && op.getLsbD i) := by
  simp [fieldKK]
theorem bit_fieldNNN (op : Word) (i : Nat) : (fieldNNN op).getLsbD i = (decide (i < 12) && op.getLsbD i) := by
  simp [fieldNNN]

/-! ## The fields of each format -/

@[simp] theorem fieldT_formatA (t : Nibble) (nnn : Addr) : fieldT (formatA t nnn) = t := by
  apply BitVec.eq_of_getLsbD_eq
  intro i hi
  simp [-BitVec.getLsbD_eq_getElem, bit_fieldT, bit_formatA, hi]

@[simp] theorem fieldNNN_formatA (t : Nibble) (nnn : Addr) : fieldNNN (formatA t nnn) = nnn := by
  apply BitVec.eq_of_getLsbD_eq
  intro i hi
  simp [-BitVec.getLsbD_eq_getElem, bit_fieldNNN, bit_formatA, hi]

@[simp] theorem fieldT_formatXK (t x : Nibble) (kk : Byte) : fieldT (formatXK t x kk) = t := by
  apply BitVec.eq_of_getLsbD_eq
  intro i hi
  simp [-BitVec.getLsbD_eq_getElem, bit_fieldT, bit_formatXK, hi]

@[simp] theorem fieldX_formatXK (t x : Nibble) (kk : Byte) : fieldX (formatXK t x kk) = x := by
  apply BitVec.eq_of_getLsbD_eq
  intro i hi
  have h1 : 8 + i < 12 := by omega
  simp [-BitVec.getLsbD_eq_getElem, bit_fieldX, bit_formatXK, hi, h1]

@[simp] theorem fieldKK_formatXK (t x : Nibble) (kk : Byte) : fieldKK (formatXK t x kk) = kk := by
  apply BitVec.eq_of_getLsbD_eq
  intro i hi
  have h1 : i < 12 := by omega
  simp [-BitVec.getLsbD_eq_getElem, bit_fieldKK, bit_formatXK, hi, h1]

@[simp] theorem fieldT_formatXYN (t x y n : Nibble) : fieldT (formatXYN t x y n) = t := by
  apply BitVec.eq_of_getLsbD_eq
  intro i hi
  simp [-BitVec.getLsbD_eq_getElem, bit_fieldT, bit_formatXYN, hi]

@[simp] theorem fieldX_formatXYN (t x y n : Nibble) : fieldX (formatXYN t x y n) = x := by
  apply BitVec.eq_of_getLsbD_eq
  intro i hi
  have h1 : 8 + i < 12 := by omega
  simp [-BitVec.getLsbD_eq_getElem, bit_fieldX, bit_formatXYN, hi, h1]

@[simp] theorem fieldY_formatXYN (t x y n : Nibble) : fieldY (formatXYN t x y n) = y := by
  apply BitVec.eq_of_getLsbD_eq
  intro i hi
  have h1 : 4 + i < 12 := by omega
  have h2 : 4 + i < 8 := by omega
  simp [-BitVec.getLsbD_eq_getElem, bit_fieldY, bit_formatXYN, hi, h1, h2]

@[simp] theorem fieldN_formatXYN (t x y n : Nibble) : fieldN (formatXYN t x y n) = n := by
  apply BitVec.eq_of_getLsbD_eq
  intro i hi
  have h1 : i < 12 := by omega
  have h2 : i < 8 := by omega
  simp [-BitVec.getLsbD_eq_getElem, bit_fieldN, bit_formatXYN, hi, h1, h2]

/-! ## Every word is the word of its fields -/

theorem formatA_fields (op : Word) : formatA (fieldT op) (fieldNNN op) = op := by
  apply BitVec.eq_of_getLsbD_eq
  intro i hi
  rw [bit_formatA, bit_fieldT, bit_fieldNNN]
  by_cases h : i < 12
  · simp [h]
  · have h1 : i - 12 < 4 := by omega
    have h2 : 12 + (i - 12) = i := by omega
    simp [h, h1, h2]

theorem formatXK_fields (op : Word) : formatXK (fieldT op) (fieldX op) (fieldKK op) = op := by
  apply BitVec.eq_of_getLsbD_eq
  intro i hi
  rw [bit_formatXK, bit_fieldT, bit_fieldX, bit_fieldKK]
  by_cases h : i < 12
  · by_cases h8 : i < 8
    · simp [h, h8]
    · have h1 : i - 8 < 4 := by omega
      have h2 : 8 + (i - 8) = i := by omega
      simp [h, h8, h1, h2]
  · have h1 : i - 12 < 4 := by omega
    have h2 : 12 + (i - 12) = i := by omega
    simp [h, h1, h2]

theorem formatXYN_fields (op : Word) : formatXYN (fieldT op) (fieldX op) (fieldY op) (fieldN op) = op := by
  apply BitVec.eq_of_getLsbD_eq
  intro i hi
  rw [bit_formatXYN, bit_fieldT, bit_fieldX, bit_fieldY, bit_fieldN]
  by_cases h : i < 12
  · by_cases h8 : i < 8
    · by_cases h4 : i < 4
      · simp [h, h8, h4]
      · have h1 : i - 4 < 4 := by omega
        have h2 : 4 + (i - 4) = i := by omega
        simp [h, h8, h4, h1, h2]
    · have h1 : i - 8 < 4 := by omega
      have h2 : 8 + (i - 8) = i := by omega
      simp [h, h8, h1, h2]
  · have h1 : i - 12 < 4 := by omega
    have h2 : 12 + (i - 12) = i := by omega
    simp [h, h1, h2]

/-! ## Masks: a format's word and a mask of the same format, field by field -/

theorem formatA_and (t t' : Nibble) (a a' : Addr) : formatA t a &&& formatA t' a' = formatA (t &&& t') (a &&& a') := by
  apply BitVec.eq_of_getLsbD_eq
  intro i _
  rw [BitVec.getLsbD_and, bit_formatA, bit_formatA, bit_formatA]
  split <;> rw [BitVec.getLsbD_and]

theorem formatXK_and (t t' x x' : Nibble) (k k' : Byte) :
    formatXK t x k &&& formatXK t' x' k' = formatXK (t &&& t') (x &&& x') (k &&& k') := by
  apply BitVec.eq_of_getLsbD_eq
  intro i _
  rw [BitVec.getLsbD_and, bit_formatXK, bit_formatXK, bit_formatXK]
  split
  · split <;> rw [BitVec.getLsbD_and]
  · rw [BitVec.getLsbD_and]

theorem formatXYN_and (t t' x x' y y' n n' : Nibble) :
    formatXYN t x y n &&& formatXYN t' x' y' n' = formatXYN (t &&& t') (x &&& x') (y &&& y') (n &&& n') := by
  apply BitVec.eq_of_getLsbD_eq
  intro i _
  rw [BitVec.getLsbD_and, bit_formatXYN, bit_formatXYN, bit_formatXYN]
  split
  · split
    · split <;> rw [BitVec.getLsbD_and]
    · rw [BitVec.getLsbD_and]
  · rw [BitVec.getLsbD_and]

/-! ## The two bytes of a word -/

/-- A word split into its two bytes and put together again is the word. -/
@[simp] theorem bigEndian_bytes (op : Word) : bigEndian (highByte op) (lowByte op) = op := by
  apply BitVec.eq_of_getLsbD_eq
  intro i hi
  rw [bit_bigEndian]
  simp only [highByte, lowByte, BitVec.getLsbD_extractLsb']
  by_cases h : i < 8
  · simp [h]
  · have h1 : i - 8 < 8 := by omega
    have h2 : 8 + (i - 8) = i := by omega
    simp [h, h1, h2]

@[simp] theorem highByte_bigEndian (hi lo : Byte) : highByte (bigEndian hi lo) = hi := by
  apply BitVec.eq_of_getLsbD_eq
  intro i hi'
  simp [-BitVec.getLsbD_eq_getElem, highByte, bit_bigEndian, hi']

@[simp] theorem lowByte_bigEndian (hi lo : Byte) : lowByte (bigEndian hi lo) = lo := by
  apply BitVec.eq_of_getLsbD_eq
  intro i hi'
  simp [-BitVec.getLsbD_eq_getElem, lowByte, bit_bigEndian, hi']

end Sys2Proof
end

