-- ==== Sys2Proof/Laws/Memory.lean ====
section
/-! SUPPORT. Memory: what a read gives after a write, at the address written and elsewhere (spec/20_memory.md R65), and
that every operation keeps the canonical form. The laws of reading hold for every list, canonical or not. -/

namespace Sys2Proof.Machine

/-! ## Reading after writing -/

theorem memRead_memErase (m : Mem) (a k : Nat) :
    memRead (memErase m a) k = if k = a then unlistedByte k else memRead m k := by
  induction m with
  | nil => simp [memErase, memRead]
  | cons e m ih =>
    obtain ⟨j, c⟩ := e
    by_cases hj : j = a
    · subst hj
      by_cases hk : k = j
      · subst hk; simp [memErase, ih]
      · simp [memErase, memRead, ih, hk]
    · by_cases hk : k = j
      · subst hk; simp [memErase, memRead, hj]
      · simp [memErase, memRead, hj, hk, ih]

/-- An entry of an address the list does not hold is what that address then reads as, and nothing else changes. -/
theorem memRead_memInsert (m : Mem) (a k : Nat) (b : Byte) (h : memRead m a = unlistedByte a ∧ ∀ e ∈ m, e.1 ≠ a) :
    memRead (memInsert m a b) k = if k = a then b else memRead m k := by
  induction m with
  | nil => simp [memInsert, memRead]
  | cons e m ih =>
    obtain ⟨j, c⟩ := e
    have hj : j ≠ a := h.2 (j, c) (by simp)
    have hm : memRead m a = unlistedByte a ∧ ∀ e ∈ m, e.1 ≠ a :=
      ⟨by simpa [memRead, Ne.symm hj] using h.1, fun e he => h.2 e (by simp [he])⟩
    by_cases hlt : a < j
    · simp [memInsert, memRead, hlt]
    · by_cases hk : k = j
      · subst hk; simp [memInsert, memRead, hlt, hj]
      · simp [memInsert, memRead, hlt, hk, ih hm]

theorem memErase_no_entry (m : Mem) (a : Nat) : ∀ e ∈ memErase m a, e.1 ≠ a := by
  induction m with
  | nil => simp [memErase]
  | cons e m ih =>
    by_cases hj : e.1 = a
    · simpa [memErase, hj] using ih
    · intro x hx
      simp only [memErase, hj, if_false, List.mem_cons] at hx
      rcases hx with rfl | hx
      · exact hj
      · exact ih x hx

/-- A byte read after a byte written: the value written at the address written, which must exist; else as before. -/
theorem memRead_memWrite (m : Mem) (a k : Nat) (b : Byte) :
    memRead (memWrite m a b) k = if k = a ∧ a < Config.memSize then b else memRead m k := by
  unfold memWrite
  by_cases ha : Config.memSize ≤ a
  · have : ¬ a < Config.memSize := by omega
    simp [ha, this]
  · have ha' : a < Config.memSize := by omega
    simp only [ha, if_false, ha', and_true]
    split
    · rename_i hb
      rw [memRead_memErase]
      by_cases hk : k = a
      · subst hk; simp [hb]
      · simp [hk]
    · rw [memRead_memInsert _ _ _ _ ⟨by simp [memRead_memErase], memErase_no_entry m a⟩, memRead_memErase]
      by_cases hk : k = a <;> simp [hk]

/-- Bytes stored one after the other: the `j`-th is at `a + j`, every other address as before. -/
theorem memRead_memWriteAll (bs : List Byte) (m : Mem) (a k : Nat) (h : a + bs.length ≤ Config.memSize) :
    memRead (memWriteAll m a bs) k = if a ≤ k ∧ k < a + bs.length then bs.getD (k - a) 0 else memRead m k := by
  induction bs generalizing m a with
  | nil =>
    have : ¬ (a ≤ k ∧ k < a) := by omega
    simp [memWriteAll, this]
  | cons b bs ih =>
    simp only [List.length_cons] at h ⊢
    rw [memWriteAll, ih _ _ (by omega), memRead_memWrite]
    have ha : a < Config.memSize := by omega
    by_cases hk : k = a
    · subst hk
      simp [ha]
    · by_cases hin : a + 1 ≤ k ∧ k < a + 1 + bs.length
      · have h2 : a ≤ k ∧ k < a + (bs.length + 1) := by omega
        have h3 : k - a = (k - (a + 1)) + 1 := by omega
        rw [if_pos hin, if_pos h2, h3, List.getD_cons_succ]
      · have h2 : ¬ (a ≤ k ∧ k < a + (bs.length + 1)) := by omega
        rw [if_neg hin, if_neg h2, if_neg (fun hc => hk hc.1)]

/-- Whatever is stored and wherever, an address outside the stored bytes reads as before. -/
theorem memRead_memWriteAll_outside (bs : List Byte) (m : Mem) (a k : Nat) (h : k < a ∨ a + bs.length ≤ k) :
    memRead (memWriteAll m a bs) k = memRead m k := by
  induction bs generalizing m a with
  | nil => rfl
  | cons b bs ih =>
    simp only [List.length_cons] at h
    rw [memWriteAll, ih _ _ (by omega), memRead_memWrite]
    have : ¬ (k = a ∧ a < Config.memSize) := by omega
    simp [this]

/-! ## The canonical form -/

theorem memWfFrom_cons (lo k : Nat) (c : Byte) (m : Mem) :
    memWfFrom lo ((k, c) :: m) = true ↔
      lo ≤ k ∧ k < Config.memSize ∧ c ≠ unlistedByte k ∧ memWfFrom (k + 1) m = true := by
  simp [memWfFrom, and_assoc]

/-- A canonical form from an address on is one from every lower address on. -/
theorem memWfFrom_mono {lo lo' : Nat} {m : Mem} (h : memWfFrom lo m = true) (hlo : lo' ≤ lo) : memWfFrom lo' m = true := by
  cases m with
  | nil => rfl
  | cons e m =>
    obtain ⟨k, c⟩ := e
    rw [memWfFrom_cons] at h ⊢
    exact ⟨hlo.trans h.1, h.2⟩

theorem memErase_keeps_wfFrom {lo : Nat} {m : Mem} (a : Nat) (h : memWfFrom lo m = true) :
    memWfFrom lo (memErase m a) = true := by
  induction m generalizing lo with
  | nil => rfl
  | cons e m ih =>
    obtain ⟨k, c⟩ := e
    rw [memWfFrom_cons] at h
    by_cases hk : k = a
    · simpa [memErase, hk] using memWfFrom_mono (ih h.2.2.2) (by omega)
    · simp only [memErase, hk, if_false]
      rw [memWfFrom_cons]
      exact ⟨h.1, h.2.1, h.2.2.1, ih h.2.2.2⟩

theorem memInsert_keeps_wfFrom {lo a : Nat} {b : Byte} {m : Mem} (h : memWfFrom lo m = true) (hno : ∀ e ∈ m, e.1 ≠ a)
    (hlo : lo ≤ a) (ha : a < Config.memSize) (hb : b ≠ unlistedByte a) : memWfFrom lo (memInsert m a b) = true := by
  induction m generalizing lo with
  | nil => simp [memInsert, memWfFrom, hlo, ha, hb]
  | cons e m ih =>
    obtain ⟨k, c⟩ := e
    have hk : k ≠ a := hno (k, c) (by simp)
    rw [memWfFrom_cons] at h
    by_cases hlt : a < k
    · simp only [memInsert, hlt, if_true]
      rw [memWfFrom_cons, memWfFrom_cons]
      exact ⟨hlo, ha, hb, by omega, h.2⟩
    · simp only [memInsert, hlt, if_false]
      rw [memWfFrom_cons]
      exact ⟨h.1, h.2.1, h.2.2.1, ih h.2.2.2 (fun e he => hno e (by simp [he])) (by omega)⟩

/-- A byte written keeps the canonical form. -/
theorem memWrite_keeps_wf {m : Mem} (a : Nat) (b : Byte) (h : m.wf = true) : (memWrite m a b).wf = true := by
  unfold memWrite
  split
  · exact h
  · split
    · exact memErase_keeps_wfFrom a h
    · exact memInsert_keeps_wfFrom (memErase_keeps_wfFrom a h) (memErase_no_entry m a) (by omega) (by omega) ‹_›

/-- Bytes written keep the canonical form. -/
theorem memWriteAll_keeps_wf (bs : List Byte) {m : Mem} (a : Nat) (h : m.wf = true) : (memWriteAll m a bs).wf = true := by
  induction bs generalizing m a with
  | nil => exact h
  | cons b bs ih => exact ih (a + 1) (memWrite_keeps_wf a b h)

/-- An address below the first one listed reads as unlisted. -/
theorem memRead_below {lo : Nat} {m : Mem} (h : memWfFrom lo m = true) {a : Nat} (ha : a < lo) :
    memRead m a = unlistedByte a := by
  induction m generalizing lo with
  | nil => rfl
  | cons e m ih =>
    obtain ⟨k, c⟩ := e
    rw [memWfFrom_cons] at h
    have : a ≠ k := by omega
    simp [memRead, this, ih h.2.2.2 (by omega)]

/-- Two canonical memories that read alike at every address are the same list. -/
theorem mem_ext_from {lo : Nat} {m m' : Mem} (h : memWfFrom lo m = true) (h' : memWfFrom lo m' = true)
    (heq : ∀ a, memRead m a = memRead m' a) : m = m' := by
  induction m generalizing lo m' with
  | nil =>
    cases m' with
    | nil => rfl
    | cons e m' =>
      obtain ⟨k, c⟩ := e
      rw [memWfFrom_cons] at h'
      exact absurd (by simpa [memRead] using (heq k).symm) h'.2.2.1
  | cons e m ih =>
    obtain ⟨k, c⟩ := e
    rw [memWfFrom_cons] at h
    cases m' with
    | nil => exact absurd (by simpa [memRead] using heq k) h.2.2.1
    | cons e' m' =>
      obtain ⟨k', c'⟩ := e'
      rw [memWfFrom_cons] at h'
      have hk : k = k' := by
        rcases Nat.lt_trichotomy k k' with hlt | he | hgt
        · have hr : memRead ((k', c') :: m') k = unlistedByte k := by
            have : k ≠ k' := by omega
            simp [memRead, this, memRead_below h'.2.2.2 (show k < k' + 1 by omega)]
          exact absurd (by simpa [memRead] using (heq k).trans hr) h.2.2.1
        · exact he
        · have hr : memRead ((k, c) :: m) k' = unlistedByte k' := by
            have : k' ≠ k := by omega
            simp [memRead, this, memRead_below h.2.2.2 (show k' < k + 1 by omega)]
          exact absurd (by simpa [memRead] using (heq k').symm.trans hr) h'.2.2.1
      subst hk
      have hc : c = c' := by simpa [memRead] using heq k
      subst hc
      refine congrArg _ (ih h.2.2.2 h'.2.2.2 fun a => ?_)
      by_cases ha : a = k
      · subst ha
        rw [memRead_below h.2.2.2 (Nat.lt_succ_self a), memRead_below h'.2.2.2 (Nat.lt_succ_self a)]
      · simpa [memRead, ha] using heq a

/-- Equal memories are equal data: the canonical form is unique. -/
theorem mem_ext {m m' : Mem} (h : m.wf = true) (h' : m'.wf = true) (heq : ∀ a, memRead m a = memRead m' a) : m = m' :=
  mem_ext_from h h' heq

end Sys2Proof.Machine
end

