-- ==== Sys2Proof/Laws/State.lean ====
section
/-! SUPPORT. One lemma per field per update of the state, each true by `rfl` and a simp lemma, so that no proof unfolds a
record update; and what each update does to a register read and to a byte read. -/

namespace Sys2Proof.Machine

variable (s : State)

/-! ## setReg -/

@[simp] theorem State.setReg_v (r : Nibble) (b : Byte) : (s.setReg r b).v = s.v.set r.toNat b r.isLt := rfl
@[simp] theorem State.setReg_i (r : Nibble) (b : Byte) : (s.setReg r b).i = s.i := rfl
@[simp] theorem State.setReg_pc (r : Nibble) (b : Byte) : (s.setReg r b).pc = s.pc := rfl
@[simp] theorem State.setReg_stack (r : Nibble) (b : Byte) : (s.setReg r b).stack = s.stack := rfl
@[simp] theorem State.setReg_sp (r : Nibble) (b : Byte) : (s.setReg r b).sp = s.sp := rfl
@[simp] theorem State.setReg_dt (r : Nibble) (b : Byte) : (s.setReg r b).dt = s.dt := rfl
@[simp] theorem State.setReg_st (r : Nibble) (b : Byte) : (s.setReg r b).st = s.st := rfl
@[simp] theorem State.setReg_mem (r : Nibble) (b : Byte) : (s.setReg r b).mem = s.mem := rfl
@[simp] theorem State.setReg_disp (r : Nibble) (b : Byte) : (s.setReg r b).disp = s.disp := rfl
@[simp] theorem State.setReg_status (r : Nibble) (b : Byte) : (s.setReg r b).status = s.status := rfl
@[simp] theorem State.setReg_cause (r : Nibble) (b : Byte) : (s.setReg r b).cause = s.cause := rfl
@[simp] theorem State.setReg_randIx (r : Nibble) (b : Byte) : (s.setReg r b).randIx = s.randIx := rfl
@[simp] theorem State.setReg_keyDownIx (r : Nibble) (b : Byte) : (s.setReg r b).keyDownIx = s.keyDownIx := rfl
@[simp] theorem State.setReg_keyEventIx (r : Nibble) (b : Byte) : (s.setReg r b).keyEventIx = s.keyEventIx := rfl
@[simp] theorem State.setReg_byteAt (r : Nibble) (b : Byte) (k : Nat) : (s.setReg r b).byteAt k = s.byteAt k := rfl

/-! ## setRegs -/

@[simp] theorem State.setRegs_v (v : RegFile) : (s.setRegs v).v = v := rfl
@[simp] theorem State.setRegs_i (v : RegFile) : (s.setRegs v).i = s.i := rfl
@[simp] theorem State.setRegs_pc (v : RegFile) : (s.setRegs v).pc = s.pc := rfl
@[simp] theorem State.setRegs_stack (v : RegFile) : (s.setRegs v).stack = s.stack := rfl
@[simp] theorem State.setRegs_sp (v : RegFile) : (s.setRegs v).sp = s.sp := rfl
@[simp] theorem State.setRegs_dt (v : RegFile) : (s.setRegs v).dt = s.dt := rfl
@[simp] theorem State.setRegs_st (v : RegFile) : (s.setRegs v).st = s.st := rfl
@[simp] theorem State.setRegs_mem (v : RegFile) : (s.setRegs v).mem = s.mem := rfl
@[simp] theorem State.setRegs_disp (v : RegFile) : (s.setRegs v).disp = s.disp := rfl
@[simp] theorem State.setRegs_status (v : RegFile) : (s.setRegs v).status = s.status := rfl
@[simp] theorem State.setRegs_cause (v : RegFile) : (s.setRegs v).cause = s.cause := rfl
@[simp] theorem State.setRegs_randIx (v : RegFile) : (s.setRegs v).randIx = s.randIx := rfl
@[simp] theorem State.setRegs_keyDownIx (v : RegFile) : (s.setRegs v).keyDownIx = s.keyDownIx := rfl
@[simp] theorem State.setRegs_keyEventIx (v : RegFile) : (s.setRegs v).keyEventIx = s.keyEventIx := rfl
@[simp] theorem State.setRegs_byteAt (v : RegFile) (k : Nat) : (s.setRegs v).byteAt k = s.byteAt k := rfl

/-! ## setI -/

@[simp] theorem State.setI_v (w : Word) : (s.setI w).v = s.v := rfl
@[simp] theorem State.setI_i (w : Word) : (s.setI w).i = w := rfl
@[simp] theorem State.setI_pc (w : Word) : (s.setI w).pc = s.pc := rfl
@[simp] theorem State.setI_stack (w : Word) : (s.setI w).stack = s.stack := rfl
@[simp] theorem State.setI_sp (w : Word) : (s.setI w).sp = s.sp := rfl
@[simp] theorem State.setI_dt (w : Word) : (s.setI w).dt = s.dt := rfl
@[simp] theorem State.setI_st (w : Word) : (s.setI w).st = s.st := rfl
@[simp] theorem State.setI_mem (w : Word) : (s.setI w).mem = s.mem := rfl
@[simp] theorem State.setI_disp (w : Word) : (s.setI w).disp = s.disp := rfl
@[simp] theorem State.setI_status (w : Word) : (s.setI w).status = s.status := rfl
@[simp] theorem State.setI_cause (w : Word) : (s.setI w).cause = s.cause := rfl
@[simp] theorem State.setI_randIx (w : Word) : (s.setI w).randIx = s.randIx := rfl
@[simp] theorem State.setI_keyDownIx (w : Word) : (s.setI w).keyDownIx = s.keyDownIx := rfl
@[simp] theorem State.setI_keyEventIx (w : Word) : (s.setI w).keyEventIx = s.keyEventIx := rfl
@[simp] theorem State.setI_reg (w : Word) (q : Nibble) : (s.setI w).reg q = s.reg q := rfl
@[simp] theorem State.setI_byteAt (w : Word) (k : Nat) : (s.setI w).byteAt k = s.byteAt k := rfl

/-! ## setPc -/

@[simp] theorem State.setPc_v (w : Word) : (s.setPc w).v = s.v := rfl
@[simp] theorem State.setPc_i (w : Word) : (s.setPc w).i = s.i := rfl
@[simp] theorem State.setPc_pc (w : Word) : (s.setPc w).pc = w := rfl
@[simp] theorem State.setPc_stack (w : Word) : (s.setPc w).stack = s.stack := rfl
@[simp] theorem State.setPc_sp (w : Word) : (s.setPc w).sp = s.sp := rfl
@[simp] theorem State.setPc_dt (w : Word) : (s.setPc w).dt = s.dt := rfl
@[simp] theorem State.setPc_st (w : Word) : (s.setPc w).st = s.st := rfl
@[simp] theorem State.setPc_mem (w : Word) : (s.setPc w).mem = s.mem := rfl
@[simp] theorem State.setPc_disp (w : Word) : (s.setPc w).disp = s.disp := rfl
@[simp] theorem State.setPc_status (w : Word) : (s.setPc w).status = s.status := rfl
@[simp] theorem State.setPc_cause (w : Word) : (s.setPc w).cause = s.cause := rfl
@[simp] theorem State.setPc_randIx (w : Word) : (s.setPc w).randIx = s.randIx := rfl
@[simp] theorem State.setPc_keyDownIx (w : Word) : (s.setPc w).keyDownIx = s.keyDownIx := rfl
@[simp] theorem State.setPc_keyEventIx (w : Word) : (s.setPc w).keyEventIx = s.keyEventIx := rfl
@[simp] theorem State.setPc_reg (w : Word) (q : Nibble) : (s.setPc w).reg q = s.reg q := rfl
@[simp] theorem State.setPc_byteAt (w : Word) (k : Nat) : (s.setPc w).byteAt k = s.byteAt k := rfl

/-! ## setDT -/

@[simp] theorem State.setDT_v (b : Byte) : (s.setDT b).v = s.v := rfl
@[simp] theorem State.setDT_i (b : Byte) : (s.setDT b).i = s.i := rfl
@[simp] theorem State.setDT_pc (b : Byte) : (s.setDT b).pc = s.pc := rfl
@[simp] theorem State.setDT_stack (b : Byte) : (s.setDT b).stack = s.stack := rfl
@[simp] theorem State.setDT_sp (b : Byte) : (s.setDT b).sp = s.sp := rfl
@[simp] theorem State.setDT_dt (b : Byte) : (s.setDT b).dt = b := rfl
@[simp] theorem State.setDT_st (b : Byte) : (s.setDT b).st = s.st := rfl
@[simp] theorem State.setDT_mem (b : Byte) : (s.setDT b).mem = s.mem := rfl
@[simp] theorem State.setDT_disp (b : Byte) : (s.setDT b).disp = s.disp := rfl
@[simp] theorem State.setDT_status (b : Byte) : (s.setDT b).status = s.status := rfl
@[simp] theorem State.setDT_cause (b : Byte) : (s.setDT b).cause = s.cause := rfl
@[simp] theorem State.setDT_randIx (b : Byte) : (s.setDT b).randIx = s.randIx := rfl
@[simp] theorem State.setDT_keyDownIx (b : Byte) : (s.setDT b).keyDownIx = s.keyDownIx := rfl
@[simp] theorem State.setDT_keyEventIx (b : Byte) : (s.setDT b).keyEventIx = s.keyEventIx := rfl
@[simp] theorem State.setDT_reg (b : Byte) (q : Nibble) : (s.setDT b).reg q = s.reg q := rfl
@[simp] theorem State.setDT_byteAt (b : Byte) (k : Nat) : (s.setDT b).byteAt k = s.byteAt k := rfl

/-! ## setST -/

@[simp] theorem State.setST_v (b : Byte) : (s.setST b).v = s.v := rfl
@[simp] theorem State.setST_i (b : Byte) : (s.setST b).i = s.i := rfl
@[simp] theorem State.setST_pc (b : Byte) : (s.setST b).pc = s.pc := rfl
@[simp] theorem State.setST_stack (b : Byte) : (s.setST b).stack = s.stack := rfl
@[simp] theorem State.setST_sp (b : Byte) : (s.setST b).sp = s.sp := rfl
@[simp] theorem State.setST_dt (b : Byte) : (s.setST b).dt = s.dt := rfl
@[simp] theorem State.setST_st (b : Byte) : (s.setST b).st = b := rfl
@[simp] theorem State.setST_mem (b : Byte) : (s.setST b).mem = s.mem := rfl
@[simp] theorem State.setST_disp (b : Byte) : (s.setST b).disp = s.disp := rfl
@[simp] theorem State.setST_status (b : Byte) : (s.setST b).status = s.status := rfl
@[simp] theorem State.setST_cause (b : Byte) : (s.setST b).cause = s.cause := rfl
@[simp] theorem State.setST_randIx (b : Byte) : (s.setST b).randIx = s.randIx := rfl
@[simp] theorem State.setST_keyDownIx (b : Byte) : (s.setST b).keyDownIx = s.keyDownIx := rfl
@[simp] theorem State.setST_keyEventIx (b : Byte) : (s.setST b).keyEventIx = s.keyEventIx := rfl
@[simp] theorem State.setST_reg (b : Byte) (q : Nibble) : (s.setST b).reg q = s.reg q := rfl
@[simp] theorem State.setST_byteAt (b : Byte) (k : Nat) : (s.setST b).byteAt k = s.byteAt k := rfl

/-! ## setDisp -/

@[simp] theorem State.setDisp_v (d : Display) : (s.setDisp d).v = s.v := rfl
@[simp] theorem State.setDisp_i (d : Display) : (s.setDisp d).i = s.i := rfl
@[simp] theorem State.setDisp_pc (d : Display) : (s.setDisp d).pc = s.pc := rfl
@[simp] theorem State.setDisp_stack (d : Display) : (s.setDisp d).stack = s.stack := rfl
@[simp] theorem State.setDisp_sp (d : Display) : (s.setDisp d).sp = s.sp := rfl
@[simp] theorem State.setDisp_dt (d : Display) : (s.setDisp d).dt = s.dt := rfl
@[simp] theorem State.setDisp_st (d : Display) : (s.setDisp d).st = s.st := rfl
@[simp] theorem State.setDisp_mem (d : Display) : (s.setDisp d).mem = s.mem := rfl
@[simp] theorem State.setDisp_disp (d : Display) : (s.setDisp d).disp = d := rfl
@[simp] theorem State.setDisp_status (d : Display) : (s.setDisp d).status = s.status := rfl
@[simp] theorem State.setDisp_cause (d : Display) : (s.setDisp d).cause = s.cause := rfl
@[simp] theorem State.setDisp_randIx (d : Display) : (s.setDisp d).randIx = s.randIx := rfl
@[simp] theorem State.setDisp_keyDownIx (d : Display) : (s.setDisp d).keyDownIx = s.keyDownIx := rfl
@[simp] theorem State.setDisp_keyEventIx (d : Display) : (s.setDisp d).keyEventIx = s.keyEventIx := rfl
@[simp] theorem State.setDisp_reg (d : Display) (q : Nibble) : (s.setDisp d).reg q = s.reg q := rfl
@[simp] theorem State.setDisp_byteAt (d : Display) (k : Nat) : (s.setDisp d).byteAt k = s.byteAt k := rfl

/-! ## storeBytes -/

@[simp] theorem State.storeBytes_v (a : Nat) (bs : List Byte) : (s.storeBytes a bs).v = s.v := rfl
@[simp] theorem State.storeBytes_i (a : Nat) (bs : List Byte) : (s.storeBytes a bs).i = s.i := rfl
@[simp] theorem State.storeBytes_pc (a : Nat) (bs : List Byte) : (s.storeBytes a bs).pc = s.pc := rfl
@[simp] theorem State.storeBytes_stack (a : Nat) (bs : List Byte) : (s.storeBytes a bs).stack = s.stack := rfl
@[simp] theorem State.storeBytes_sp (a : Nat) (bs : List Byte) : (s.storeBytes a bs).sp = s.sp := rfl
@[simp] theorem State.storeBytes_dt (a : Nat) (bs : List Byte) : (s.storeBytes a bs).dt = s.dt := rfl
@[simp] theorem State.storeBytes_st (a : Nat) (bs : List Byte) : (s.storeBytes a bs).st = s.st := rfl
@[simp] theorem State.storeBytes_mem (a : Nat) (bs : List Byte) : (s.storeBytes a bs).mem = memWriteAll s.mem a bs := rfl
@[simp] theorem State.storeBytes_disp (a : Nat) (bs : List Byte) : (s.storeBytes a bs).disp = s.disp := rfl
@[simp] theorem State.storeBytes_status (a : Nat) (bs : List Byte) : (s.storeBytes a bs).status = s.status := rfl
@[simp] theorem State.storeBytes_cause (a : Nat) (bs : List Byte) : (s.storeBytes a bs).cause = s.cause := rfl
@[simp] theorem State.storeBytes_randIx (a : Nat) (bs : List Byte) : (s.storeBytes a bs).randIx = s.randIx := rfl
@[simp] theorem State.storeBytes_keyDownIx (a : Nat) (bs : List Byte) : (s.storeBytes a bs).keyDownIx = s.keyDownIx := rfl
@[simp] theorem State.storeBytes_keyEventIx (a : Nat) (bs : List Byte) : (s.storeBytes a bs).keyEventIx = s.keyEventIx := rfl
@[simp] theorem State.storeBytes_reg (a : Nat) (bs : List Byte) (q : Nibble) : (s.storeBytes a bs).reg q = s.reg q := rfl

/-! ## push -/

@[simp] theorem State.push_v (w : Word) (h : s.sp.val < Config.stackDepth) : (s.push w h).v = s.v := rfl
@[simp] theorem State.push_i (w : Word) (h : s.sp.val < Config.stackDepth) : (s.push w h).i = s.i := rfl
@[simp] theorem State.push_pc (w : Word) (h : s.sp.val < Config.stackDepth) : (s.push w h).pc = s.pc := rfl
@[simp] theorem State.push_stack (w : Word) (h : s.sp.val < Config.stackDepth) : (s.push w h).stack = s.stack.set s.sp.val w h := rfl
@[simp] theorem State.push_sp (w : Word) (h : s.sp.val < Config.stackDepth) : (s.push w h).sp = ⟨s.sp.val + 1, Nat.succ_lt_succ h⟩ := rfl
@[simp] theorem State.push_dt (w : Word) (h : s.sp.val < Config.stackDepth) : (s.push w h).dt = s.dt := rfl
@[simp] theorem State.push_st (w : Word) (h : s.sp.val < Config.stackDepth) : (s.push w h).st = s.st := rfl
@[simp] theorem State.push_mem (w : Word) (h : s.sp.val < Config.stackDepth) : (s.push w h).mem = s.mem := rfl
@[simp] theorem State.push_disp (w : Word) (h : s.sp.val < Config.stackDepth) : (s.push w h).disp = s.disp := rfl
@[simp] theorem State.push_status (w : Word) (h : s.sp.val < Config.stackDepth) : (s.push w h).status = s.status := rfl
@[simp] theorem State.push_cause (w : Word) (h : s.sp.val < Config.stackDepth) : (s.push w h).cause = s.cause := rfl
@[simp] theorem State.push_randIx (w : Word) (h : s.sp.val < Config.stackDepth) : (s.push w h).randIx = s.randIx := rfl
@[simp] theorem State.push_keyDownIx (w : Word) (h : s.sp.val < Config.stackDepth) : (s.push w h).keyDownIx = s.keyDownIx := rfl
@[simp] theorem State.push_keyEventIx (w : Word) (h : s.sp.val < Config.stackDepth) : (s.push w h).keyEventIx = s.keyEventIx := rfl
@[simp] theorem State.push_reg (w : Word) (h : s.sp.val < Config.stackDepth) (q : Nibble) : (s.push w h).reg q = s.reg q := rfl
@[simp] theorem State.push_byteAt (w : Word) (h : s.sp.val < Config.stackDepth) (k : Nat) : (s.push w h).byteAt k = s.byteAt k := rfl

/-! ## drop -/

@[simp] theorem State.drop_v : (s.drop).v = s.v := rfl
@[simp] theorem State.drop_i : (s.drop).i = s.i := rfl
@[simp] theorem State.drop_pc : (s.drop).pc = s.pc := rfl
@[simp] theorem State.drop_stack : (s.drop).stack = s.stack := rfl
@[simp] theorem State.drop_sp : (s.drop).sp = ⟨s.sp.val - 1, by have := s.sp.isLt; omega⟩ := rfl
@[simp] theorem State.drop_dt : (s.drop).dt = s.dt := rfl
@[simp] theorem State.drop_st : (s.drop).st = s.st := rfl
@[simp] theorem State.drop_mem : (s.drop).mem = s.mem := rfl
@[simp] theorem State.drop_disp : (s.drop).disp = s.disp := rfl
@[simp] theorem State.drop_status : (s.drop).status = s.status := rfl
@[simp] theorem State.drop_cause : (s.drop).cause = s.cause := rfl
@[simp] theorem State.drop_randIx : (s.drop).randIx = s.randIx := rfl
@[simp] theorem State.drop_keyDownIx : (s.drop).keyDownIx = s.keyDownIx := rfl
@[simp] theorem State.drop_keyEventIx : (s.drop).keyEventIx = s.keyEventIx := rfl
@[simp] theorem State.drop_reg (q : Nibble) : (s.drop).reg q = s.reg q := rfl
@[simp] theorem State.drop_byteAt (k : Nat) : (s.drop).byteAt k = s.byteAt k := rfl

/-! ## stop -/

@[simp] theorem State.stop_v (st : Status) (c : Cause) : (s.stop st c).v = s.v := rfl
@[simp] theorem State.stop_i (st : Status) (c : Cause) : (s.stop st c).i = s.i := rfl
@[simp] theorem State.stop_pc (st : Status) (c : Cause) : (s.stop st c).pc = s.pc := rfl
@[simp] theorem State.stop_stack (st : Status) (c : Cause) : (s.stop st c).stack = s.stack := rfl
@[simp] theorem State.stop_sp (st : Status) (c : Cause) : (s.stop st c).sp = s.sp := rfl
@[simp] theorem State.stop_dt (st : Status) (c : Cause) : (s.stop st c).dt = s.dt := rfl
@[simp] theorem State.stop_st (st : Status) (c : Cause) : (s.stop st c).st = s.st := rfl
@[simp] theorem State.stop_mem (st : Status) (c : Cause) : (s.stop st c).mem = s.mem := rfl
@[simp] theorem State.stop_disp (st : Status) (c : Cause) : (s.stop st c).disp = s.disp := rfl
@[simp] theorem State.stop_status (st : Status) (c : Cause) : (s.stop st c).status = st := rfl
@[simp] theorem State.stop_cause (st : Status) (c : Cause) : (s.stop st c).cause = c := rfl
@[simp] theorem State.stop_randIx (st : Status) (c : Cause) : (s.stop st c).randIx = s.randIx := rfl
@[simp] theorem State.stop_keyDownIx (st : Status) (c : Cause) : (s.stop st c).keyDownIx = s.keyDownIx := rfl
@[simp] theorem State.stop_keyEventIx (st : Status) (c : Cause) : (s.stop st c).keyEventIx = s.keyEventIx := rfl
@[simp] theorem State.stop_reg (st : Status) (c : Cause) (q : Nibble) : (s.stop st c).reg q = s.reg q := rfl
@[simp] theorem State.stop_byteAt (st : Status) (c : Cause) (k : Nat) : (s.stop st c).byteAt k = s.byteAt k := rfl

/-! ## tookRand -/

@[simp] theorem State.tookRand_v : (s.tookRand).v = s.v := rfl
@[simp] theorem State.tookRand_i : (s.tookRand).i = s.i := rfl
@[simp] theorem State.tookRand_pc : (s.tookRand).pc = s.pc := rfl
@[simp] theorem State.tookRand_stack : (s.tookRand).stack = s.stack := rfl
@[simp] theorem State.tookRand_sp : (s.tookRand).sp = s.sp := rfl
@[simp] theorem State.tookRand_dt : (s.tookRand).dt = s.dt := rfl
@[simp] theorem State.tookRand_st : (s.tookRand).st = s.st := rfl
@[simp] theorem State.tookRand_mem : (s.tookRand).mem = s.mem := rfl
@[simp] theorem State.tookRand_disp : (s.tookRand).disp = s.disp := rfl
@[simp] theorem State.tookRand_status : (s.tookRand).status = s.status := rfl
@[simp] theorem State.tookRand_cause : (s.tookRand).cause = s.cause := rfl
@[simp] theorem State.tookRand_randIx : (s.tookRand).randIx = s.randIx + 1 := rfl
@[simp] theorem State.tookRand_keyDownIx : (s.tookRand).keyDownIx = s.keyDownIx := rfl
@[simp] theorem State.tookRand_keyEventIx : (s.tookRand).keyEventIx = s.keyEventIx := rfl
@[simp] theorem State.tookRand_reg (q : Nibble) : (s.tookRand).reg q = s.reg q := rfl
@[simp] theorem State.tookRand_byteAt (k : Nat) : (s.tookRand).byteAt k = s.byteAt k := rfl

/-! ## tookKeyDown -/

@[simp] theorem State.tookKeyDown_v : (s.tookKeyDown).v = s.v := rfl
@[simp] theorem State.tookKeyDown_i : (s.tookKeyDown).i = s.i := rfl
@[simp] theorem State.tookKeyDown_pc : (s.tookKeyDown).pc = s.pc := rfl
@[simp] theorem State.tookKeyDown_stack : (s.tookKeyDown).stack = s.stack := rfl
@[simp] theorem State.tookKeyDown_sp : (s.tookKeyDown).sp = s.sp := rfl
@[simp] theorem State.tookKeyDown_dt : (s.tookKeyDown).dt = s.dt := rfl
@[simp] theorem State.tookKeyDown_st : (s.tookKeyDown).st = s.st := rfl
@[simp] theorem State.tookKeyDown_mem : (s.tookKeyDown).mem = s.mem := rfl
@[simp] theorem State.tookKeyDown_disp : (s.tookKeyDown).disp = s.disp := rfl
@[simp] theorem State.tookKeyDown_status : (s.tookKeyDown).status = s.status := rfl
@[simp] theorem State.tookKeyDown_cause : (s.tookKeyDown).cause = s.cause := rfl
@[simp] theorem State.tookKeyDown_randIx : (s.tookKeyDown).randIx = s.randIx := rfl
@[simp] theorem State.tookKeyDown_keyDownIx : (s.tookKeyDown).keyDownIx = s.keyDownIx + 1 := rfl
@[simp] theorem State.tookKeyDown_keyEventIx : (s.tookKeyDown).keyEventIx = s.keyEventIx := rfl
@[simp] theorem State.tookKeyDown_reg (q : Nibble) : (s.tookKeyDown).reg q = s.reg q := rfl
@[simp] theorem State.tookKeyDown_byteAt (k : Nat) : (s.tookKeyDown).byteAt k = s.byteAt k := rfl

/-! ## tookKeyEvent -/

@[simp] theorem State.tookKeyEvent_v : (s.tookKeyEvent).v = s.v := rfl
@[simp] theorem State.tookKeyEvent_i : (s.tookKeyEvent).i = s.i := rfl
@[simp] theorem State.tookKeyEvent_pc : (s.tookKeyEvent).pc = s.pc := rfl
@[simp] theorem State.tookKeyEvent_stack : (s.tookKeyEvent).stack = s.stack := rfl
@[simp] theorem State.tookKeyEvent_sp : (s.tookKeyEvent).sp = s.sp := rfl
@[simp] theorem State.tookKeyEvent_dt : (s.tookKeyEvent).dt = s.dt := rfl
@[simp] theorem State.tookKeyEvent_st : (s.tookKeyEvent).st = s.st := rfl
@[simp] theorem State.tookKeyEvent_mem : (s.tookKeyEvent).mem = s.mem := rfl
@[simp] theorem State.tookKeyEvent_disp : (s.tookKeyEvent).disp = s.disp := rfl
@[simp] theorem State.tookKeyEvent_status : (s.tookKeyEvent).status = s.status := rfl
@[simp] theorem State.tookKeyEvent_cause : (s.tookKeyEvent).cause = s.cause := rfl
@[simp] theorem State.tookKeyEvent_randIx : (s.tookKeyEvent).randIx = s.randIx := rfl
@[simp] theorem State.tookKeyEvent_keyDownIx : (s.tookKeyEvent).keyDownIx = s.keyDownIx := rfl
@[simp] theorem State.tookKeyEvent_keyEventIx : (s.tookKeyEvent).keyEventIx = s.keyEventIx + 1 := rfl
@[simp] theorem State.tookKeyEvent_reg (q : Nibble) : (s.tookKeyEvent).reg q = s.reg q := rfl
@[simp] theorem State.tookKeyEvent_byteAt (k : Nat) : (s.tookKeyEvent).byteAt k = s.byteAt k := rfl

/-! ## The updates that are another update under a name of the spec -/

theorem State.setVF_eq (b : Byte) : s.setVF b = s.setReg 0xF b := rfl
@[simp] theorem State.advance_eq : s.advance = s.setPc (s.pc + 2) := rfl
@[simp] theorem State.halt_eq (c : Cause) : s.halt c = s.stop .halted c := rfl
@[simp] theorem State.raiseFault_eq (c : Cause) : s.raiseFault c = s.stop .fault c := rfl

end Sys2Proof.Machine
end

