-- ==== Sys2Proof/Laws/Ops.lean ====
section
/-! SUPPORT. What each shared operation does, once: registers, skips, the stack, the block operands, the range check and
the fetch. -/

namespace Sys2Proof.Machine

/-! ## Registers (R21) -/

/-- A register read after a register written. -/
theorem State.reg_setReg (s : State) (r q : Nibble) (b : Byte) :
    (s.setReg r b).reg q = if q = r then b else s.reg q := by
  by_cases h : q = r
  · subst h; simp [State.reg]
  · have : r.toNat ≠ q.toNat := fun hn => h (BitVec.eq_of_toNat_eq hn.symm)
    simp [State.reg, h, Vector.getElem_set_ne, this]

@[simp] theorem State.reg_setReg_same (s : State) (r : Nibble) (b : Byte) : (s.setReg r b).reg r = b := by
  simp [State.reg_setReg]

theorem State.reg_setReg_other (s : State) {r q : Nibble} (b : Byte) (h : q ≠ r) : (s.setReg r b).reg q = s.reg q := by
  simp [State.reg_setReg, h]

/-- Two register files that read alike are the same. -/
theorem regs_ext {s t : State} (h : ∀ r, s.reg r = t.reg r) : s.v = t.v := by
  apply Vector.ext
  intro k hk
  have := h (BitVec.ofNat 4 k)
  have hm : k % 16 = k := by omega
  simpa [State.reg, hm] using this

/-- The operand of `V[q]` in a sum, as a number. -/
@[simp] theorem State.regExtended_toNat (s : State) (q : Nibble) : (s.regExtended q).toNat = (s.reg q).toNat := by
  have := (s.reg q).isLt
  simp only [State.regExtended, BitVec.toNat_setWidth]
  omega

@[simp] theorem addrOperand_toNat (nnn : Addr) : (addrOperand nnn).toNat = nnn.toNat := by
  have := nnn.isLt
  simp only [addrOperand, BitVec.toNat_setWidth]
  omega

/-! ## Skips (R283): the program counter and nothing else -/

theorem State.skipIf_eq (s : State) (c : Bool) : s.skipIf c = s.setPc (if c then s.pc + 2 else s.pc) := by
  cases c <;> rfl

/-! ## The stack (R16) -/

/-- What was pushed is what is popped. -/
theorem State.top_push (s : State) (w : Word) (h : s.sp.val < Config.stackDepth) (h' : 0 < (s.push w h).sp.val) :
    (s.push w h).top h' = w := by
  simp [State.top]

/-- Popping what was pushed gives the pointer back. -/
theorem State.drop_push_sp (s : State) (w : Word) (h : s.sp.val < Config.stackDepth) : (s.push w h).drop.sp = s.sp := by
  apply Fin.ext
  simp

/-! ## The range check (R59, R60) -/

theorem State.outOfRange_iff (s : State) (k : Nat) : s.outOfRange k = true ↔ s.i.toNat + k > 0xFFF := by
  simp [State.outOfRange, State.effAddr]

theorem State.outOfRange_eq_false (s : State) (k : Nat) : s.outOfRange k = false ↔ s.i.toNat + k ≤ 0xFFF := by
  simp [State.outOfRange, State.effAddr]

/-! ## Blocks of bytes (R202 to R204) -/

/-- A byte read after bytes stored inside memory. -/
theorem State.byteAt_storeBytes (s : State) (a k : Nat) (bs : List Byte) (h : a + bs.length ≤ Config.memSize) :
    (s.storeBytes a bs).byteAt k = if a ≤ k ∧ k < a + bs.length then bs.getD (k - a) 0 else s.byteAt k :=
  memRead_memWriteAll bs s.mem a k h

/-- A byte read outside the bytes stored. -/
theorem State.byteAt_storeBytes_outside (s : State) (a k : Nat) (bs : List Byte) (h : k < a ∨ a + bs.length ≤ k) :
    (s.storeBytes a bs).byteAt k = s.byteAt k :=
  memRead_memWriteAll_outside bs s.mem a k h

@[simp] theorem State.regsUpTo_length (s : State) (x : Nibble) : (s.regsUpTo x).length = x.toNat + 1 := by
  have := x.isLt
  simp only [State.regsUpTo, List.length_take, Vector.length_toList]
  omega

/-- The `k`-th byte of the block `V0` to `Vx` is register `k`. -/
theorem State.regsUpTo_getD (s : State) (x r : Nibble) (h : r.toNat ≤ x.toNat) :
    (s.regsUpTo x).getD r.toNat 0 = s.reg r := by
  have hr : r.toNat < 16 := r.isLt
  simp [State.regsUpTo, State.reg, List.getD, h, hr]

/-- The register file after `count` bytes are loaded: registers below `count` hold them, the others are as before. -/
theorem loadInto_getElem (m : Mem) (base count : Nat) (v : RegFile) (k : Nat) (hk : k < 16) :
    (loadInto m base count v)[k] = if k < count then memRead m (base + k) else v[k] := by
  induction count with
  | zero => simp [loadInto]
  | succ n ih =>
    simp only [loadInto, Vector.getElem_setIfInBounds]
    by_cases h : n = k
    · subst h; simp
    · by_cases hl : k < n
      · simp [h, ih, hl, Nat.lt_succ_of_lt hl]
      · have : ¬ k < n + 1 := by omega
        simp [h, ih, hl, this]

/-- A register after a block load (R204). -/
theorem State.reg_loadInto (s : State) (m : Mem) (base count : Nat) (r : Nibble) :
    (s.setRegs (loadInto m base count s.v)).reg r = if r.toNat < count then memRead m (base + r.toNat) else s.reg r := by
  simp [State.reg, loadInto_getElem]

/-! ## Fetching (R56, R81) -/

/-- A word placed at PC is the word fetched, wherever a fetch happens. -/
theorem State.fetchWord_placeWord (s : State) (op : Word) (h : s.pcPastTop = false) :
    (s.placeWord op).fetchWord = op := by
  have hpc : s.pc.toNat ≤ 0xFFE := by simpa [State.pcPastTop] using h
  have hfit : s.pc.toNat + [highByte op, lowByte op].length ≤ Config.memSize := by
    simp [Config.memSize]; omega
  rw [State.placeWord, State.fetchWord, State.storeBytes_pc, State.byteAt_storeBytes _ _ _ _ hfit,
    State.byteAt_storeBytes _ _ _ _ hfit]
  simp

end Sys2Proof.Machine
end

