-- ==== Sys2Proof/Laws/Sprite.lean ====
section
/-! SUPPORT. The sprite engine pixel by pixel (spec/44_display.md R167): what one XORed byte, one row and all rows do to
every pixel and to the collision flag. -/

namespace Sys2Proof.Machine

/-! ## One display byte -/

theorem dispByte_set (d : Display) (idx k : Nat) (b : Byte) (h : idx < 256) :
    dispByte (d.setIfInBounds idx b) k = if k = idx then b else dispByte d k := by
  unfold dispByte
  rw [Vector.getElem?_setIfInBounds]
  by_cases hk : idx = k
  · subst hk; simp [Config.dispBytes, h]
  · simp [hk, Ne.symm hk]

/-- A collision is a pixel that was on and is inverted: the equivalence R167 states. -/
theorem collided_xor (before mask : Byte) :
    collided before (before ^^^ mask) = true ↔ ∃ j, j < 8 ∧ before.getLsbD j = true ∧ mask.getLsbD j = true := by
  unfold collided
  rw [bne_iff_ne, ne_eq]
  constructor
  · intro h
    by_contra hc
    apply h
    apply BitVec.eq_of_getLsbD_eq
    intro j hj
    have hno : ¬ (before.getLsbD j = true ∧ mask.getLsbD j = true) := fun hb => hc ⟨j, hj, hb⟩
    rw [BitVec.getLsbD_and, BitVec.getLsbD_xor]
    revert hno
    cases before.getLsbD j <;> cases mask.getLsbD j <;> simp
  · rintro ⟨j, _, hb, hm⟩ h
    have hbit := congrArg (fun w => w.getLsbD j) h
    simp [BitVec.getLsbD_and, BitVec.getLsbD_xor, hb, hm] at hbit

/-- The pixel a bit of a display byte is (R33). -/
theorem pixelOf_xorByte (c : Canvas) (idx : Nat) (mask : Byte) (px py : Nat) (h : idx < 256) :
    pixelOf (c.xorByte idx mask).disp px py =
      (pixelOf c.disp px py ^^ (decide (py * 8 + px / 8 = idx) && mask.getLsbD (7 - px % 8))) := by
  unfold pixelOf Canvas.xorByte
  simp only
  rw [dispByte_set _ _ _ _ h]
  by_cases hk : py * 8 + px / 8 = idx
  · subst hk; simp
  · simp [hk]

theorem hit_xorByte (c : Canvas) (idx : Nat) (mask : Byte) :
    (c.xorByte idx mask).hit = true ↔
      c.hit = true ∨ ∃ j, j < 8 ∧ (dispByte c.disp idx).getLsbD j = true ∧ mask.getLsbD j = true := by
  simp [Canvas.xorByte, collided_xor]

/-! ## One row -/

/-- The bits of a row's byte, shifted into two display bytes, lie one a pixel from the start column on. -/
theorem spriteBit_left (sprite : Byte) (off q : Nat) (hq : q < 8) :
    (sprite >>> off).getLsbD (7 - q) = (decide (off ≤ q) && sprite.getLsbD (7 - (q - off))) := by
  rw [BitVec.getLsbD_ushiftRight]
  by_cases h : off ≤ q
  · have : off + (7 - q) = 7 - (q - off) := by omega
    simp [h, this]
  · have : 8 ≤ off + (7 - q) := by omega
    simp [h, BitVec.getLsbD_of_ge _ _ this]

theorem spriteBit_right (sprite : Byte) (off q : Nat) (hq : q < 8) (hoff : off < 8) :
    (sprite <<< (8 - off)).getLsbD (7 - q) = (decide (q < off) && sprite.getLsbD (7 - (q + 8 - off))) := by
  rw [BitVec.getLsbD_shiftLeft]
  by_cases h : q < off
  · have h1 : 7 - q < 8 := by omega
    have h2 : ¬ (7 - q < 8 - off) := by omega
    have h3 : 7 - q - (8 - off) = 7 - (q + 8 - off) := by omega
    simp [h, h1, h2, h3]
  · have h2 : 7 - q < 8 - off := by omega
    simp [h, h2]

/-- One row inverts exactly the pixels the row's byte has ones at, and none off the screen. -/
theorem pixelOf_row (c : Canvas) (y col off : Nat) (sprite : Byte) (px py : Nat) (hy : y < 32) (hcol : col < 8)
    (hoff : off < 8) (hpx : px < 64) :
    pixelOf (c.row (y * 8 + col) col off sprite).disp px py =
      (pixelOf c.disp px py ^^
        (decide (py = y ∧ col * 8 + off ≤ px ∧ px < col * 8 + off + 8) && sprite.getLsbD (7 - (px - (col * 8 + off))))) := by
  have hq : px % 8 < 8 := Nat.mod_lt _ (by omega)
  unfold Canvas.row
  simp only
  split
  · rename_i hs
    rw [pixelOf_xorByte _ _ _ _ _ (by omega), pixelOf_xorByte _ _ _ _ _ (by omega), spriteBit_left _ _ _ hq,
      spriteBit_right _ _ _ hq hoff, Bool.xor_assoc]
    congr 1
    by_cases h1 : py * 8 + px / 8 = y * 8 + col
    · have h2 : ¬ (py * 8 + px / 8 = y * 8 + col + 1) := by omega
      by_cases h3 : off ≤ px % 8
      · have h4 : py = y ∧ col * 8 + off ≤ px ∧ px < col * 8 + off + 8 := by omega
        have h5 : px % 8 - off = px - (col * 8 + off) := by omega
        rw [decide_eq_true h1, decide_eq_false h2, decide_eq_true h3, decide_eq_true h4, h5]; simp
      · have h4 : ¬ (py = y ∧ col * 8 + off ≤ px ∧ px < col * 8 + off + 8) := by omega
        rw [decide_eq_false h2, decide_eq_false h3, decide_eq_false h4]; simp
    · by_cases h2 : py * 8 + px / 8 = y * 8 + col + 1
      · by_cases h3 : px % 8 < off
        · have h4 : py = y ∧ col * 8 + off ≤ px ∧ px < col * 8 + off + 8 := by omega
          have h5 : px % 8 + 8 - off = px - (col * 8 + off) := by omega
          rw [decide_eq_false h1, decide_eq_true h2, decide_eq_true h3, decide_eq_true h4, h5]; simp
        · have h4 : ¬ (py = y ∧ col * 8 + off ≤ px ∧ px < col * 8 + off + 8) := by omega
          rw [decide_eq_false h1, decide_eq_false h3, decide_eq_false h4]; simp
      · have h4 : ¬ (py = y ∧ col * 8 + off ≤ px ∧ px < col * 8 + off + 8) := by omega
        rw [decide_eq_false h1, decide_eq_false h2, decide_eq_false h4]; simp
  · rename_i hs
    rw [pixelOf_xorByte _ _ _ _ _ (by omega), spriteBit_left _ _ _ hq]
    congr 1
    by_cases h1 : py * 8 + px / 8 = y * 8 + col
    · by_cases h3 : off ≤ px % 8
      · have h4 : py = y ∧ col * 8 + off ≤ px ∧ px < col * 8 + off + 8 := by omega
        have h5 : px % 8 - off = px - (col * 8 + off) := by omega
        rw [decide_eq_true h1, decide_eq_true h3, decide_eq_true h4, h5]; simp
      · have h4 : ¬ (py = y ∧ col * 8 + off ≤ px ∧ px < col * 8 + off + 8) := by omega
        rw [decide_eq_false h3, decide_eq_false h4]; simp
    · have h4 : ¬ (py = y ∧ col * 8 + off ≤ px ∧ px < col * 8 + off + 8) := by omega
      rw [decide_eq_false h1, decide_eq_false h4]; simp

/-- A bit of a display byte is a pixel. -/
theorem dispByte_bit (d : Display) (y c j : Nat) (hj : j < 8) :
    (dispByte d (y * 8 + c)).getLsbD j = pixelOf d (c * 8 + (7 - j)) y := by
  unfold pixelOf
  have h1 : y * 8 + (c * 8 + (7 - j)) / 8 = y * 8 + c := by omega
  have h2 : 7 - (c * 8 + (7 - j)) % 8 = j := by omega
  rw [h1, h2]

/-- One row sets the collision flag when a pixel it inverts was on. -/
theorem hit_row (c : Canvas) (y col off : Nat) (sprite : Byte) (hy : y < 32) (hcol : col < 8) (hoff : off < 8) :
    (c.row (y * 8 + col) col off sprite).hit = true ↔
      c.hit = true ∨ ∃ px, px < 64 ∧ pixelOf c.disp px y = true ∧ col * 8 + off ≤ px ∧ px < col * 8 + off + 8 ∧
        sprite.getLsbD (7 - (px - (col * 8 + off))) = true := by
  have left : (∃ j, j < 8 ∧ (dispByte c.disp (y * 8 + col)).getLsbD j = true ∧ (sprite >>> off).getLsbD j = true) ↔
      ∃ px, px / 8 = col ∧ pixelOf c.disp px y = true ∧ col * 8 + off ≤ px ∧
        sprite.getLsbD (7 - (px - (col * 8 + off))) = true := by
    constructor
    · rintro ⟨j, hj, hb, hm⟩
      rw [dispByte_bit _ _ _ _ hj] at hb
      have hj' : 7 - (7 - j) = j := by omega
      have hm' := spriteBit_left sprite off (7 - j) (by omega)
      rw [hj', hm] at hm'
      simp only [Bool.true_eq, Bool.and_eq_true, decide_eq_true_eq] at hm'
      refine ⟨col * 8 + (7 - j), by omega, hb, by omega, ?_⟩
      have : col * 8 + (7 - j) - (col * 8 + off) = 7 - j - off := by omega
      rw [this]; exact hm'.2
    · rintro ⟨px, hc, hb, hlo, hm⟩
      refine ⟨7 - px % 8, by omega, ?_, ?_⟩
      · rw [dispByte_bit _ _ _ _ (by omega)]
        have : col * 8 + (7 - (7 - px % 8)) = px := by omega
        rw [this]; exact hb
      · rw [spriteBit_left _ _ _ (by omega)]
        have h1 : off ≤ px % 8 := by omega
        have h2 : px % 8 - off = px - (col * 8 + off) := by omega
        simp [-BitVec.getLsbD_eq_getElem, h1, h2, hm]
  unfold Canvas.row
  simp only
  split
  · rename_i hs
    have right : (∃ j, j < 8 ∧ (dispByte (c.xorByte (y * 8 + col) (sprite >>> off)).disp (y * 8 + col + 1)).getLsbD j = true ∧
        (sprite <<< (8 - off)).getLsbD j = true) ↔
        ∃ px, px / 8 = col + 1 ∧ pixelOf c.disp px y = true ∧ px < col * 8 + off + 8 ∧
          sprite.getLsbD (7 - (px - (col * 8 + off))) = true := by
      have hsame : dispByte (c.xorByte (y * 8 + col) (sprite >>> off)).disp (y * 8 + col + 1) =
          dispByte c.disp (y * 8 + (col + 1)) := by
        have hne : y * 8 + (col + 1) ≠ y * 8 + col := by omega
        rw [Canvas.xorByte, Nat.add_assoc, dispByte_set _ _ _ _ (by omega), if_neg hne]
      rw [hsame]
      constructor
      · rintro ⟨j, hj, hb, hm⟩
        rw [dispByte_bit _ _ _ _ hj] at hb
        have hj' : 7 - (7 - j) = j := by omega
        have hm' := spriteBit_right sprite off (7 - j) (by omega) hoff
        rw [hj', hm] at hm'
        simp only [Bool.true_eq, Bool.and_eq_true, decide_eq_true_eq] at hm'
        refine ⟨(col + 1) * 8 + (7 - j), by omega, hb, by omega, ?_⟩
        have : (col + 1) * 8 + (7 - j) - (col * 8 + off) = 7 - j + 8 - off := by omega
        rw [this]; exact hm'.2
      · rintro ⟨px, hc, hb, hhi, hm⟩
        refine ⟨7 - px % 8, by omega, ?_, ?_⟩
        · rw [dispByte_bit _ _ _ _ (by omega)]
          have : (col + 1) * 8 + (7 - (7 - px % 8)) = px := by omega
          rw [this]; exact hb
        · rw [spriteBit_right _ _ _ (by omega) hoff]
          have h1 : px % 8 < off := by omega
          have h2 : px % 8 + 8 - off = px - (col * 8 + off) := by omega
          simp [-BitVec.getLsbD_eq_getElem, h1, h2, hm]
    rw [hit_xorByte, hit_xorByte, left, right, or_assoc]
    refine or_congr_right ⟨?_, ?_⟩
    · rintro (⟨px, hc, hb, hlo, hm⟩ | ⟨px, hc, hb, hhi, hm⟩)
      · exact ⟨px, by omega, hb, hlo, by omega, hm⟩
      · exact ⟨px, by omega, hb, by omega, hhi, hm⟩
    · rintro ⟨px, hpx, hb, hlo, hhi, hm⟩
      by_cases hc : px / 8 = col
      · exact .inl ⟨px, hc, hb, hlo, hm⟩
      · exact .inr ⟨px, by omega, hb, hhi, hm⟩
  · rename_i hs
    rw [hit_xorByte, left]
    refine or_congr_right ⟨?_, ?_⟩
    · rintro ⟨px, hc, hb, hlo, hm⟩
      exact ⟨px, by omega, hb, hlo, by omega, hm⟩
    · rintro ⟨px, hpx, hb, hlo, hhi, hm⟩
      exact ⟨px, by omega, hb, hlo, hm⟩

/-! ## All rows -/

/-- The rows drawn so far invert exactly the pixels the sprite covers (R167). -/
theorem pixelOf_rows (mem : Mem) (base ys col off m : Nat) (c : Canvas) (px py : Nat) (hm : ys + m ≤ 32)
    (hcol : col < 8) (hoff : off < 8) (hpx : px < 64) :
    pixelOf (Canvas.rows mem base ys col off m c).disp px py =
      (pixelOf c.disp px py ^^ spriteCovers mem base (col * 8 + off) ys m px py) := by
  induction m with
  | zero =>
    have : ¬ (ys ≤ py ∧ py < ys + 0 ∧ col * 8 + off ≤ px ∧ px < col * 8 + off + 8) := by omega
    rw [Canvas.rows, spriteCovers, decide_eq_false this]; simp
  | succ r ih =>
    rw [Canvas.rows, pixelOf_row _ _ _ _ _ _ _ (by omega) hcol hoff hpx, ih (by omega), Bool.xor_assoc]
    congr 1
    unfold spriteCovers
    by_cases h : py = ys + r
    · have h1 : ¬ (ys ≤ py ∧ py < ys + r ∧ col * 8 + off ≤ px ∧ px < col * 8 + off + 8) := by omega
      have h2 : py - ys = r := by omega
      by_cases h3 : col * 8 + off ≤ px ∧ px < col * 8 + off + 8
      · have h4 : ys ≤ py ∧ py < ys + (r + 1) ∧ col * 8 + off ≤ px ∧ px < col * 8 + off + 8 := by omega
        rw [decide_eq_false h1, decide_eq_true h4, decide_eq_true ⟨h, h3⟩, h2]; simp
      · have h4 : ¬ (ys ≤ py ∧ py < ys + (r + 1) ∧ col * 8 + off ≤ px ∧ px < col * 8 + off + 8) := by omega
        rw [decide_eq_false h1, decide_eq_false h4, decide_eq_false (fun hc => h3 hc.2)]; simp
    · have h1 : (ys ≤ py ∧ py < ys + (r + 1) ∧ col * 8 + off ≤ px ∧ px < col * 8 + off + 8) ↔
          (ys ≤ py ∧ py < ys + r ∧ col * 8 + off ≤ px ∧ px < col * 8 + off + 8) := by omega
      have h2 : ¬ (py = ys + r ∧ col * 8 + off ≤ px ∧ px < col * 8 + off + 8) := fun hc => h hc.1
      simp only [h1, h2, decide_false, Bool.false_and, Bool.xor_false]

/-- The rows drawn so far set the collision flag when a pixel the sprite covers was on (R167). -/
theorem hit_rows (mem : Mem) (base ys col off m : Nat) (c : Canvas) (hm : ys + m ≤ 32) (hcol : col < 8) (hoff : off < 8) :
    (Canvas.rows mem base ys col off m c).hit = true ↔
      c.hit = true ∨ ∃ px py, px < 64 ∧ pixelOf c.disp px py = true ∧
        spriteCovers mem base (col * 8 + off) ys m px py = true := by
  induction m with
  | zero =>
    refine ⟨.inl, ?_⟩
    rintro (h | ⟨px, py, _, _, hc⟩)
    · exact h
    · simp only [spriteCovers, Bool.and_eq_true, decide_eq_true_eq] at hc
      omega
  | succ r ih =>
    rw [Canvas.rows, hit_row _ _ _ _ _ (by omega) hcol hoff, ih (by omega), or_assoc]
    refine or_congr_right ⟨?_, ?_⟩
    · rintro (⟨px, py, hpx, hb, hc⟩ | ⟨px, hpx, hb, hlo, hhi, hm'⟩)
      · refine ⟨px, py, hpx, hb, ?_⟩
        simp only [spriteCovers, Bool.and_eq_true, decide_eq_true_eq] at hc ⊢
        exact ⟨by omega, hc.2⟩
      · refine ⟨px, ys + r, hpx, ?_, ?_⟩
        · rw [pixelOf_rows _ _ _ _ _ _ _ _ _ (by omega) hcol hoff hpx] at hb
          have : spriteCovers mem base (col * 8 + off) ys r px (ys + r) = false := by
            have : ¬ (ys ≤ ys + r ∧ ys + r < ys + r ∧ col * 8 + off ≤ px ∧ px < col * 8 + off + 8) := by omega
            rw [spriteCovers, decide_eq_false this, Bool.false_and]
          simpa [this] using hb
        · have h1 : ys ≤ ys + r ∧ ys + r < ys + (r + 1) ∧ col * 8 + off ≤ px ∧ px < col * 8 + off + 8 := by omega
          have h2 : ys + r - ys = r := by omega
          rw [spriteCovers, decide_eq_true h1, h2, hm']; rfl
    · rintro ⟨px, py, hpx, hb, hc⟩
      have hc' := hc
      simp only [spriteCovers, Bool.and_eq_true, decide_eq_true_eq] at hc'
      by_cases h : py = ys + r
      · subst h
        have h2 : ys + r - ys = r := by omega
        rw [h2] at hc'
        refine .inr ⟨px, hpx, ?_, hc'.1.2.2.1, hc'.1.2.2.2, hc'.2⟩
        rw [pixelOf_rows _ _ _ _ _ _ _ _ _ (by omega) hcol hoff hpx]
        have : spriteCovers mem base (col * 8 + off) ys r px (ys + r) = false := by
          have : ¬ (ys ≤ ys + r ∧ ys + r < ys + r ∧ col * 8 + off ≤ px ∧ px < col * 8 + off + 8) := by omega
          rw [spriteCovers, decide_eq_false this, Bool.false_and]
        simp [this, hb]
      · refine .inl ⟨px, py, hpx, hb, ?_⟩
        simp only [spriteCovers, Bool.and_eq_true, decide_eq_true_eq]
        exact ⟨by omega, hc'.2⟩

/-- Two displays whose pixels agree are the same display. -/
theorem display_ext {d e : Display} (h : ∀ px py, px < 64 → py < 32 → pixelOf d px py = pixelOf e px py) : d = e := by
  have hbyte : ∀ k, k < 256 → dispByte d k = dispByte e k := by
    intro k hk
    apply BitVec.eq_of_getLsbD_eq
    intro j hj
    have hk' : k = k / 8 * 8 + k % 8 := by omega
    rw [hk', dispByte_bit d _ _ _ hj, dispByte_bit e _ _ _ hj]
    exact h _ _ (by omega) (by omega)
  apply Vector.ext
  intro k hk
  simpa [dispByte, hk] using hbyte k hk

end Sys2Proof.Machine
end

