-- ==== Sys2Proof/Laws/Machine.lean ====
section
/-! SUPPORT. What the operations that the meanings share do, once: the flag write, the shifts, the digits, the glyphs, the
draw's row count and range check, the key wait, the timers, loading and the step; and the frames' lists. -/

namespace Sys2Proof.Machine

theorem next_inj {s t : State} (h : (Host.Outcome.next s : Host.Outcome State Fault Refusal) = .next t) : s = t := by
  cases h; rfl

/-- Every footprint lets a state stay as it is. -/
theorem leaves_refl (f : Footprint) (s : State) : Leaves f s s := by simp [Leaves]

/-! ## Flags and shifts (R140, R148, R150) -/

theorem flagByte_shiftedOutRight : ∀ a : Byte, (flagByte (shiftedOutRight a)).toNat = a.toNat % 2 := by decide

theorem flagByte_shiftedOutLeft : ∀ a : Byte, (flagByte (shiftedOutLeft a)).toNat = a.toNat / 128 := by decide

/-- After the write order of R140, VF holds the flag, whichever register is the destination. -/
theorem State.reg_resultThenFlag (s : State) (x q : Nibble) (result : Byte) (flag : Bool) :
    (s.resultThenFlag x result flag).reg q = if q = 0xF then flagByte flag else if q = x then result else s.reg q := by
  simp [State.resultThenFlag, State.setVF_eq, State.reg_setReg]

/-- A right shift, register by register: of VF itself nothing remains. -/
theorem State.reg_shiftRight (s : State) (x q : Nibble) :
    (s.shiftRight x).reg q =
      if q = x then (if x = 0xF then (0 : Byte) else s.reg x >>> 1)
      else if q = 0xF then flagByte (shiftedOutRight (s.reg x)) else s.reg q := by
  have h0 : ∀ b : Bool, flagByte b >>> 1 = 0 := by decide
  by_cases hx : x = 0xF
  · subst hx; simp [State.shiftRight, State.setVF_eq, State.reg_setReg, h0]
  · simp only [State.shiftRight, State.setVF_eq, State.reg_setReg, hx, if_false]

/-- A left shift, register by register: of VF itself the flag, shifted, remains. -/
theorem State.reg_shiftLeft (s : State) (x q : Nibble) :
    (s.shiftLeft x).reg q =
      if q = x then (if x = 0xF then flagByte (shiftedOutLeft (s.reg x)) <<< 1 else s.reg x <<< 1)
      else if q = 0xF then flagByte (shiftedOutLeft (s.reg x)) else s.reg q := by
  by_cases hx : x = 0xF
  · subst hx; simp [State.shiftLeft, State.setVF_eq, State.reg_setReg]
  · simp only [State.shiftLeft, State.setVF_eq, State.reg_setReg, hx, if_false]

/-! ## Digits and glyphs (R201, R202) -/

theorem bcdDigits_toNat :
    ∀ b : Byte, (bcdDigits b).map BitVec.toNat = [b.toNat / 100, b.toNat / 10 % 10, b.toNat % 10] := by decide

theorem glyphAddr_toNat (b : Byte) : (glyphAddr b).toNat = fontBase + 5 * (b.toNat % 16) := by
  have low4 : ∀ b : Byte, (b &&& 0x0F).toNat = b.toNat % 16 := by decide
  simp only [glyphAddr, low4, BitVec.toNat_ofNat, fontBase]
  omega

/-! ## The draw (R166, R168, R171) -/

theorem rowsDrawn_eq_rowsOnScreen (xs ys : Byte) (n : Nibble) : rowsDrawn xs ys n = rowsOnScreen xs ys n := by
  have h : xs.toNat / 8 ≥ 8 ↔ xs.toNat ≥ 64 := by omega
  simp [rowsDrawn, rowsOnScreen, startCol, h]

/-- The rows that are drawn lie on the screen. -/
theorem rowsOnScreen_le (xs ys : Byte) (n : Nibble) :
    rowsOnScreen xs ys n = 0 ∨ (xs.toNat < 64 ∧ ys.toNat + rowsOnScreen xs ys n ≤ 32) := by
  unfold rowsOnScreen; split <;> omega

theorem State.drawOutOfRange_iff (s : State) (xs ys : Byte) (n : Nibble) :
    s.drawOutOfRange xs ys n = true ↔ 0 < rowsOnScreen xs ys n ∧ s.i.toNat + rowsOnScreen xs ys n > 0x1000 := by
  simp only [State.drawOutOfRange, rowsDrawn_eq_rowsOnScreen, Bool.and_eq_true, decide_eq_true_eq, State.outOfRange_iff]
  omega

/-- A draw writes VF and the display. -/
theorem State.drawAt_frame (s : State) (xs ys : Byte) (n : Nibble) :
    Leaves { regs := [0xF], display := true } s (s.drawAt xs ys n) := by
  simp +contextual [Leaves, State.drawAt, State.setVF_eq, State.reg_setReg]

/-! ## The key wait and the timers (R187, R250) -/

/-- The key wait for either answer: it writes PC or one register. -/
theorem State.keyEventInto_cases (s : State) (e : Option Byte) (x : Nibble) :
    (e = none ∧ s.keyEventInto e x = s.setPc (s.pc - 2)) ∨ ∃ code, e = some code ∧ s.keyEventInto e x = s.setReg x code := by
  cases e with
  | none => exact .inl ⟨rfl, rfl⟩
  | some code => exact .inr ⟨code, rfl, rfl⟩

theorem tickDown_toNat (b : Byte) : (tickDown b).toNat = b.toNat - 1 := by
  revert b; decide

/-! ## Loading (R274, R275) -/

/-- All that a load can do. -/
theorem load_cases (bytes : List Byte) (overrideReserved : Bool) (s : State) :
    (imageTooLarge bytes overrideReserved = true ∧ load bytes overrideReserved s = (s, .rejected)) ∨
    (imageTooLarge bytes overrideReserved = false ∧
      load bytes overrideReserved s = (s.storeBytes (loadBase overrideReserved) bytes, .accepted)) := by
  cases h : imageTooLarge bytes overrideReserved <;> simp [load, h]

/-! ## The step (R230) -/

/-- All that a step can do, whatever executes the instruction: nothing, halt past the top, or execute. -/
theorem stepWith_cases {ex : Instr → State → Host.Outcome State Fault Refusal} {s t : State}
    (h : stepWith ex s = .next t) :
    (s.status ≠ .running ∧ t = s) ∨
    (s.status = .running ∧ s.pc.toNat > 0xFFE ∧ t = s.halt .haltPcTop) ∨
    (s.status = .running ∧ s.pc.toNat ≤ 0xFFE ∧ ex (decodeWord s.fetchWord) s.advance = .next t) := by
  unfold stepWith at h
  split at h <;> rename_i hr
  · exact .inl ⟨hr, (next_inj h).symm⟩
  · split at h <;> rename_i hp
    · exact .inr (.inl ⟨not_not.mp hr, of_decide_eq_true hp, (next_inj h).symm⟩)
    · have hpc : ¬ s.pc.toNat > 0xFFE := fun hgt => hp (decide_eq_true hgt)
      exact .inr (.inr ⟨not_not.mp hr, by omega, h⟩)

/-! ## The lists of the frames -/

theorem State.mem_addrsFromI (s : State) (a count : Nat) :
    a ∈ s.addrsFromI count ↔ s.i.toNat ≤ a ∧ a < s.i.toNat + count := by
  simp only [State.addrsFromI, List.mem_map, List.mem_range, State.effAddr]
  constructor
  · rintro ⟨k, hk, rfl⟩; omega
  · intro h; exact ⟨a - s.i.toNat, by omega, by omega⟩

theorem mem_regsThrough (x r : Nibble) : r ∈ regsThrough x ↔ r.toNat ≤ x.toNat := by
  simp only [regsThrough, List.mem_map, List.mem_range]
  constructor
  · rintro ⟨k, hk, rfl⟩
    have := x.isLt
    simp; omega
  · intro h; exact ⟨r.toNat, by omega, by simp⟩

end Sys2Proof.Machine
end

