-- ==== Sys2Proof/Laws/PerInstr.lean ====
section
/-! SUPPORT. A family of statements made once per instruction: its word is one its own row of the opcode map selects
(spec/30_encoding.md R86 to R88), and a well-formed no-op's word is selected by none (spec/47_unrecognised.md R220). -/

namespace Sys2Proof.Laws

/-- The mask and match of an instruction's row in spec/opcode_table.json; none for the fall-through row. -/
def rowOf : Instr → Option (Word × Word)
  | .cls => some (0xFFFF, 0x00E0)
  | .ret => some (0xFFFF, 0x00EE)
  | .jp _ => some (0xF000, 0x1000)
  | .call _ => some (0xF000, 0x2000)
  | .seImm _ _ => some (0xF000, 0x3000)
  | .sneImm _ _ => some (0xF000, 0x4000)
  | .seReg _ _ => some (0xF00F, 0x5000)
  | .ldImm _ _ => some (0xF000, 0x6000)
  | .addImm _ _ => some (0xF000, 0x7000)
  | .ldReg _ _ => some (0xF00F, 0x8000)
  | .orReg _ _ => some (0xF00F, 0x8001)
  | .andReg _ _ => some (0xF00F, 0x8002)
  | .xorReg _ _ => some (0xF00F, 0x8003)
  | .addReg _ _ => some (0xF00F, 0x8004)
  | .subReg _ _ => some (0xF00F, 0x8005)
  | .shr _ _ => some (0xF00F, 0x8006)
  | .subnReg _ _ => some (0xF00F, 0x8007)
  | .shl _ _ => some (0xF00F, 0x800E)
  | .sneReg _ _ => some (0xF00F, 0x9000)
  | .ldI _ => some (0xF000, 0xA000)
  | .jpV0 _ => some (0xF000, 0xB000)
  | .rnd _ _ => some (0xF000, 0xC000)
  | .drw _ _ _ => some (0xF000, 0xD000)
  | .skp _ => some (0xF0FF, 0xE09E)
  | .sknp _ => some (0xF0FF, 0xE0A1)
  | .ldVxDT _ => some (0xF0FF, 0xF007)
  | .ldVxK _ => some (0xF0FF, 0xF00A)
  | .ldDTVx _ => some (0xF0FF, 0xF015)
  | .ldSTVx _ => some (0xF0FF, 0xF018)
  | .addI _ => some (0xF0FF, 0xF01E)
  | .ldF _ => some (0xF0FF, 0xF029)
  | .ldB _ => some (0xF0FF, 0xF033)
  | .storeRegs _ => some (0xF0FF, 0xF055)
  | .loadRegs _ => some (0xF0FF, 0xF065)
  | .nop _ => none

/-- The word of an instruction selects its row, a row of the map; a well-formed no-op's word selects no row. -/
def RowMatch.Statement (i : Instr) : Prop :=
  match rowOf i with
  | some row => row ∈ opcodeRows ∧ selects (encode i) row = true
  | none => wellFormed i = true → ∀ row ∈ opcodeRows, selects (encode i) row = false

theorem selects_formatA (t : Nibble) (nnn : Addr) : selects (formatA t nnn) (0xF000, formatA t 0) = true := by
  have h : formatA t nnn &&& formatA 0xF 0 = formatA t 0 := by
    rw [formatA_and]; congr 1
    · revert t; decide
    · exact BitVec.and_zero
  exact beq_iff_eq.mpr h

theorem selects_formatXK (t x : Nibble) (kk : Byte) : selects (formatXK t x kk) (0xF000, formatXK t 0 0) = true := by
  have h : formatXK t x kk &&& formatXK 0xF 0 0 = formatXK t 0 0 := by
    rw [formatXK_and]; congr 1
    · revert t; decide
    · exact BitVec.and_zero
    · exact BitVec.and_zero
  exact beq_iff_eq.mpr h

theorem selects_formatX (t x : Nibble) (kk : Byte) : selects (formatXK t x kk) (0xF0FF, formatXK t 0 kk) = true := by
  have h : formatXK t x kk &&& formatXK 0xF 0 0xFF = formatXK t 0 kk := by
    rw [formatXK_and]; congr 1
    · revert t; decide
    · exact BitVec.and_zero
    · exact BitVec.and_allOnes
  exact beq_iff_eq.mpr h

theorem selects_formatXY (t x y n : Nibble) : selects (formatXYN t x y n) (0xF00F, formatXYN t 0 0 n) = true := by
  have h : formatXYN t x y n &&& formatXYN 0xF 0 0 0xF = formatXYN t 0 0 n := by
    rw [formatXYN_and]; congr 1
    · revert t; decide
    · exact BitVec.and_zero
    · exact BitVec.and_zero
    · revert n; decide
  exact beq_iff_eq.mpr h

theorem selects_formatXYN (t x y n : Nibble) : selects (formatXYN t x y n) (0xF000, formatXYN t 0 0 0) = true := by
  have h : formatXYN t x y n &&& formatXYN 0xF 0 0 0 = formatXYN t 0 0 0 := by
    rw [formatXYN_and]; congr 1
    · revert t; decide
    · exact BitVec.and_zero
    · exact BitVec.and_zero
    · exact BitVec.and_zero
  exact beq_iff_eq.mpr h

theorem RowMatch.cls : RowMatch.Statement .cls := ⟨by decide, by decide⟩
theorem RowMatch.ret : RowMatch.Statement .ret := ⟨by decide, by decide⟩
theorem RowMatch.jp (nnn : Addr) : RowMatch.Statement (.jp nnn) :=
  ⟨by decide, selects_formatA 0x1 nnn⟩
theorem RowMatch.call (nnn : Addr) : RowMatch.Statement (.call nnn) :=
  ⟨by decide, selects_formatA 0x2 nnn⟩
theorem RowMatch.seImm (x : Nibble) (kk : Byte) : RowMatch.Statement (.seImm x kk) :=
  ⟨by decide, selects_formatXK 0x3 x kk⟩
theorem RowMatch.sneImm (x : Nibble) (kk : Byte) : RowMatch.Statement (.sneImm x kk) :=
  ⟨by decide, selects_formatXK 0x4 x kk⟩
theorem RowMatch.seReg (x y : Nibble) : RowMatch.Statement (.seReg x y) :=
  ⟨by decide, selects_formatXY 0x5 x y 0x0⟩
theorem RowMatch.ldImm (x : Nibble) (kk : Byte) : RowMatch.Statement (.ldImm x kk) :=
  ⟨by decide, selects_formatXK 0x6 x kk⟩
theorem RowMatch.addImm (x : Nibble) (kk : Byte) : RowMatch.Statement (.addImm x kk) :=
  ⟨by decide, selects_formatXK 0x7 x kk⟩
theorem RowMatch.ldReg (x y : Nibble) : RowMatch.Statement (.ldReg x y) :=
  ⟨by decide, selects_formatXY 0x8 x y 0x0⟩
theorem RowMatch.orReg (x y : Nibble) : RowMatch.Statement (.orReg x y) :=
  ⟨by decide, selects_formatXY 0x8 x y 0x1⟩
theorem RowMatch.andReg (x y : Nibble) : RowMatch.Statement (.andReg x y) :=
  ⟨by decide, selects_formatXY 0x8 x y 0x2⟩
theorem RowMatch.xorReg (x y : Nibble) : RowMatch.Statement (.xorReg x y) :=
  ⟨by decide, selects_formatXY 0x8 x y 0x3⟩
theorem RowMatch.addReg (x y : Nibble) : RowMatch.Statement (.addReg x y) :=
  ⟨by decide, selects_formatXY 0x8 x y 0x4⟩
theorem RowMatch.subReg (x y : Nibble) : RowMatch.Statement (.subReg x y) :=
  ⟨by decide, selects_formatXY 0x8 x y 0x5⟩
theorem RowMatch.shr (x y : Nibble) : RowMatch.Statement (.shr x y) :=
  ⟨by decide, selects_formatXY 0x8 x y 0x6⟩
theorem RowMatch.subnReg (x y : Nibble) : RowMatch.Statement (.subnReg x y) :=
  ⟨by decide, selects_formatXY 0x8 x y 0x7⟩
theorem RowMatch.shl (x y : Nibble) : RowMatch.Statement (.shl x y) :=
  ⟨by decide, selects_formatXY 0x8 x y 0xE⟩
theorem RowMatch.sneReg (x y : Nibble) : RowMatch.Statement (.sneReg x y) :=
  ⟨by decide, selects_formatXY 0x9 x y 0x0⟩
theorem RowMatch.ldI (nnn : Addr) : RowMatch.Statement (.ldI nnn) :=
  ⟨by decide, selects_formatA 0xA nnn⟩
theorem RowMatch.jpV0 (nnn : Addr) : RowMatch.Statement (.jpV0 nnn) :=
  ⟨by decide, selects_formatA 0xB nnn⟩
theorem RowMatch.rnd (x : Nibble) (kk : Byte) : RowMatch.Statement (.rnd x kk) :=
  ⟨by decide, selects_formatXK 0xC x kk⟩
theorem RowMatch.drw (x y n : Nibble) : RowMatch.Statement (.drw x y n) :=
  ⟨by decide, selects_formatXYN 0xD x y n⟩
theorem RowMatch.skp (x : Nibble) : RowMatch.Statement (.skp x) :=
  ⟨by decide, selects_formatX 0xE x 0x9E⟩
theorem RowMatch.sknp (x : Nibble) : RowMatch.Statement (.sknp x) :=
  ⟨by decide, selects_formatX 0xE x 0xA1⟩
theorem RowMatch.ldVxDT (x : Nibble) : RowMatch.Statement (.ldVxDT x) :=
  ⟨by decide, selects_formatX 0xF x 0x07⟩
theorem RowMatch.ldVxK (x : Nibble) : RowMatch.Statement (.ldVxK x) :=
  ⟨by decide, selects_formatX 0xF x 0x0A⟩
theorem RowMatch.ldDTVx (x : Nibble) : RowMatch.Statement (.ldDTVx x) :=
  ⟨by decide, selects_formatX 0xF x 0x15⟩
theorem RowMatch.ldSTVx (x : Nibble) : RowMatch.Statement (.ldSTVx x) :=
  ⟨by decide, selects_formatX 0xF x 0x18⟩
theorem RowMatch.addI (x : Nibble) : RowMatch.Statement (.addI x) :=
  ⟨by decide, selects_formatX 0xF x 0x1E⟩
theorem RowMatch.ldF (x : Nibble) : RowMatch.Statement (.ldF x) :=
  ⟨by decide, selects_formatX 0xF x 0x29⟩
theorem RowMatch.ldB (x : Nibble) : RowMatch.Statement (.ldB x) :=
  ⟨by decide, selects_formatX 0xF x 0x33⟩
theorem RowMatch.storeRegs (x : Nibble) : RowMatch.Statement (.storeRegs x) :=
  ⟨by decide, selects_formatX 0xF x 0x55⟩
theorem RowMatch.loadRegs (x : Nibble) : RowMatch.Statement (.loadRegs x) :=
  ⟨by decide, selects_formatX 0xF x 0x65⟩
theorem RowMatch.nop (word : Word) : RowMatch.Statement (.nop word) := by
  intro h row hrow
  have hn : ∀ r ∈ opcodeRows, ¬ selects word r = true := by simpa [wellFormed, recognised] using h
  simpa [encode] using hn row hrow

end Sys2Proof.Laws
end

