-- ==== Sys2Proof/Tests/Slice0.lean ====
section
/-! SUPPORT. Tests. Every expected result comes from spec/: the words from the patterns of 30_encoding.md R86 to R88 and
47_unrecognised.md R221, the results from the vectors of 95_test_vectors.md (cited by section), and the witnesses from the
bounds of the rules the statements cite. -/

namespace Sys2Proof.Tests

open Sys2Proof.Machine

/-! ## Helpers -/

/-- The outcome is a next state with the property. -/
def ran (o : Host.Outcome State Fault Refusal) (p : State → Bool) : Bool :=
  match o with
  | .next t => p t
  | .fault _ => false
  | .refused _ => false

/-- The reset state with some registers written. -/
def regs (l : List (Nibble × Byte)) : State := l.foldl (fun s r => s.setReg r.1 r.2) State.reset

/-- One step of the state with the word placed at PC. -/
def stepOf (s : State) (w : Nat) : Host.Outcome State Fault Refusal := step (s.withFetchWord 16 w)

/-- The reset state with `depth` stack entries in use. -/
def withDepth (depth : Fin 17) : State := { State.reset with sp := depth }

/-- The display with one byte written. -/
def dispWith (k : Nat) (b : Byte) : Display := State.reset.disp.setIfInBounds k b

/-! ## Well-formed terms: the one check, and a term it refuses -/

theorem test_wf_accepts_noop_word : wellFormed (.nop 0x0FFF) = true := by decide
theorem test_wf_refuses_nop_with_jp_word : wellFormed (.nop 0x1234) = false := by decide
theorem test_wf_refuses_nop_with_cls_word : wellFormed (.nop 0x00E0) = false := by decide
theorem test_wf_accepts_fields : (wellFormed (.drw 0xF 0xF 0x0) && wellFormed (.jp 0xFFF)) = true := by decide

/-! ## Decoding: a word of every constructor, written out from its pattern (R86 to R88, R221) -/

theorem test_decode_display : decodeWord 0b0000000011100000 = .cls ∧ decodeWord 0b1101000100101111 = .drw 0x1 0x2 0xF := by
  decide

theorem test_decode_control :
    decodeWord 0b0000000011101110 = .ret ∧ decodeWord 0b0001001000110100 = .jp 0x234 ∧
    decodeWord 0b0010001100000100 = .call 0x304 ∧ decodeWord 0b1011111111111110 = .jpV0 0xFFE := by decide

theorem test_decode_skips :
    decodeWord 0b0011001100101010 = .seImm 0x3 0x2A ∧ decodeWord 0b0100001100101011 = .sneImm 0x3 0x2B ∧
    decodeWord 0b0101000100100000 = .seReg 0x1 0x2 ∧ decodeWord 0b1001000100100000 = .sneReg 0x1 0x2 := by decide

theorem test_decode_immediate :
    decodeWord 0b0110101000000111 = .ldImm 0xA 0x07 ∧ decodeWord 0b0111000111111111 = .addImm 0x1 0xFF ∧
    decodeWord 0b1010001000100000 = .ldI 0x220 := by decide

theorem test_decode_alu_logic :
    decodeWord 0b1000101010110000 = .ldReg 0xA 0xB ∧ decodeWord 0b1000101010110001 = .orReg 0xA 0xB ∧
    decodeWord 0b1000101010110010 = .andReg 0xA 0xB ∧ decodeWord 0b1000101010110011 = .xorReg 0xA 0xB := by decide

theorem test_decode_alu_arithmetic :
    decodeWord 0b1000101010110100 = .addReg 0xA 0xB ∧ decodeWord 0b1000101010110101 = .subReg 0xA 0xB ∧
    decodeWord 0b1000101010110110 = .shr 0xA 0xB ∧ decodeWord 0b1000101010110111 = .subnReg 0xA 0xB ∧
    decodeWord 0b1000101010111110 = .shl 0xA 0xB := by decide

theorem test_decode_random : decodeWord 0b1100001100001111 = .rnd 0x3 0x0F := by decide

theorem test_decode_keys :
    decodeWord 0b1110001010011110 = .skp 0x2 ∧ decodeWord 0b1110001010100001 = .sknp 0x2 ∧
    decodeWord 0b1111001100001010 = .ldVxK 0x3 := by decide

theorem test_decode_timers :
    decodeWord 0b1111001000000111 = .ldVxDT 0x2 ∧ decodeWord 0b1111001000010101 = .ldDTVx 0x2 ∧
    decodeWord 0b1111001000011000 = .ldSTVx 0x2 := by decide

theorem test_decode_index_memory :
    decodeWord 0b1111001000011110 = .addI 0x2 ∧ decodeWord 0b1111001100101001 = .ldF 0x3 ∧
    decodeWord 0b1111010000110011 = .ldB 0x4 ∧ decodeWord 0b1111000101010101 = .storeRegs 0x1 ∧
    decodeWord 0b1111001001100101 = .loadRegs 0x2 := by decide

/-- The words of 95_test_vectors.md 2.8, each a no-op. -/
theorem test_decode_noops :
    ([0x0000, 0x0FFF, 0x00E1, 0x00FE, 0x0123, 0x5121, 0x512F, 0x8128, 0x812D, 0x812F, 0x9121, 0xE29F, 0xE200, 0xE2A0] ++
      [0xF300, 0xF354, 0xF356, 0xF366, 0xF3FF] : List Word).all (fun w => decodeWord w == .nop w) = true := by decide

/-- The first byte in memory is the high one (R81); three bytes leave one. -/
theorem test_decode_big_endian : decode [0x12, 0x34, 0x56] = .ok (.jp 0x234, [0x56]) := by decide

theorem test_decode_one_byte_is_truncated : decode [0x12] = .error .truncated := by decide

theorem test_encode_words :
    encode (.addReg 0xA 0xB) = 0x8AB4 ∧ encode (.ldVxK 0x3) = 0xF30A ∧ encodeBytes (.call 0x304) = [0x23, 0x04] := by decide

theorem test_table_word_of_the_host : decodeTableWord 16 0x6A07 = some (.ldImm 0xA 0x07) := by decide

/-! ## The listing (95 Part 1, S8) -/

theorem test_listing_cls : listing (decodeWord 0x00E0) = some "CLS" := by decide
theorem test_listing_jp : listing (decodeWord 0x1234) = some "JP 234" := by decide
theorem test_listing_ld : listing (decodeWord 0x6A07) = some "LD VA, 07" := by decide
theorem test_strict_decoder_fails : decodeStrict 0x0FFF = .error (.unknownInstruction 0x0FFF) := by decide

/-! ## Control flow (95 section 2.1) -/

theorem test_ret_pops : ran (stepOf { withDepth 1 with stack := State.reset.stack.set 0 0x20A } 0x00EE)
    (fun t => t.pc == 0x20A && t.sp == 0) = true := by decide
theorem test_ret_empty_halts : ran (stepOf State.reset 0x00EE)
    (fun t => t.pc == 0x202 && t.sp == 0 && statusCode t.status == 1 && causeCode t.cause == 2) = true := by decide
theorem test_jp : ran (stepOf State.reset 0x1234) (fun t => t.pc == 0x234) = true := by decide
theorem test_call_pushes_return_address : ran (stepOf (State.reset.setPc 0x208) 0x220E)
    (fun t => t.stack[0] == 0x20A && t.sp == 1 && t.pc == 0x20E) = true := by decide
theorem test_call_full_faults : ran (stepOf (withDepth 16) 0x2300)
    (fun t => statusCode t.status == 2 && causeCode t.cause == 4 && t.pc == 0x202 && t.sp == 16) = true := by
  decide
theorem test_jpv0_not_masked : ran (stepOf (regs [(0, 0xFF)]) 0xBFFF) (fun t => t.pc == 0x10FE) = true := by decide
theorem test_jpv0_adds_v0_not_vx : ran (stepOf (regs [(0, 0x04), (3, 0x55)]) 0xB300) (fun t => t.pc == 0x304) = true := by
  decide
theorem test_se_imm : (ran (stepOf (regs [(3, 0x2A)]) 0x332A) (fun t => t.pc == 0x204) &&
    ran (stepOf (regs [(3, 0x2A)]) 0x332B) (fun t => t.pc == 0x202)) = true := by decide
theorem test_sne_imm : (ran (stepOf (regs [(3, 0x2A)]) 0x432A) (fun t => t.pc == 0x202) &&
    ran (stepOf (regs [(3, 0x2A)]) 0x432B) (fun t => t.pc == 0x204)) = true := by decide
theorem test_se_reg : (ran (stepOf (regs [(1, 7), (2, 7)]) 0x5120) (fun t => t.pc == 0x204) &&
    ran (stepOf (regs [(1, 7), (2, 8)]) 0x5120) (fun t => t.pc == 0x202)) = true := by decide
theorem test_sne_reg : (ran (stepOf (regs [(1, 7), (2, 8)]) 0x9120) (fun t => t.pc == 0x204) &&
    ran (stepOf (regs [(1, 7), (2, 7)]) 0x9120) (fun t => t.pc == 0x202)) = true := by decide

/-! ## Immediates (95 section 2.2) -/

theorem test_ld_imm : ran (stepOf State.reset 0x6A07) (fun t => t.reg 0xA == 0x07 && t.pc == 0x202) = true := by
  decide
theorem test_add_imm_wraps_without_flag : ran (stepOf (regs [(1, 0xFF)]) 0x7101)
    (fun t => t.reg 1 == 0 && t.reg 0xF == 0) = true := by decide
theorem test_add_imm_on_vf : ran (stepOf (regs [(0xF, 0xFE)]) 0x7F03) (fun t => t.reg 0xF == 1) = true := by decide
theorem test_ld_i : ran (stepOf (State.reset.setI 0xFFFF) 0xA000) (fun t => t.i == 0) = true := by decide

/-! ## The register ALU (95 section 2.3) -/

theorem test_ld_reg : ran (stepOf (regs [(1, 0x11), (2, 0x33), (0xF, 7)]) 0x8120)
    (fun t => t.reg 1 == 0x33 && t.reg 0xF == 7) = true := by decide
theorem test_or_leaves_vf : ran (stepOf (regs [(1, 0xF3), (2, 0x3C), (0xF, 7)]) 0x8121)
    (fun t => t.reg 1 == 0xFF && t.reg 0xF == 7) = true := by decide
theorem test_and_leaves_vf : ran (stepOf (regs [(1, 0xF3), (2, 0x3C), (0xF, 7)]) 0x8122)
    (fun t => t.reg 1 == 0x30 && t.reg 0xF == 7) = true := by decide
theorem test_xor_leaves_vf : ran (stepOf (regs [(1, 0xF3), (2, 0x3C), (0xF, 7)]) 0x8123)
    (fun t => t.reg 1 == 0xCF && t.reg 0xF == 7) = true := by decide
theorem test_add_carry : ran (stepOf (regs [(1, 0xFF), (2, 0x01), (0xF, 7)]) 0x8124)
    (fun t => t.reg 1 == 0 && t.reg 0xF == 1) = true := by decide
theorem test_add_into_vf : ran (stepOf (regs [(0xF, 0x10), (1, 0x20)]) 0x8F14) (fun t => t.reg 0xF == 0) = true := by
  decide
theorem test_sub_borrow : ran (stepOf (regs [(1, 0x00), (2, 0x01), (0xF, 7)]) 0x8125)
    (fun t => t.reg 1 == 0xFF && t.reg 0xF == 0) = true := by decide
theorem test_sub_equal_is_no_borrow : ran (stepOf (regs [(3, 0x90)]) 0x8335)
    (fun t => t.reg 3 == 0 && t.reg 0xF == 1) = true := by decide
theorem test_shr : ran (stepOf (regs [(1, 0xFF), (2, 0xAA), (0xF, 7)]) 0x8126)
    (fun t => t.reg 1 == 0x7F && t.reg 2 == 0xAA && t.reg 0xF == 1) = true := by decide
theorem test_shr_of_vf : ran (stepOf (regs [(0xF, 0x81)]) 0x8F06) (fun t => t.reg 0xF == 0) = true := by decide
theorem test_subn : ran (stepOf (regs [(1, 0x01), (2, 0x10)]) 0x8127)
    (fun t => t.reg 1 == 0x0F && t.reg 0xF == 1) = true := by decide
theorem test_subn_borrow : ran (stepOf (regs [(1, 0xFF), (2, 0x01), (0xF, 7)]) 0x8127)
    (fun t => t.reg 1 == 0x02 && t.reg 0xF == 0) = true := by decide
theorem test_shl : ran (stepOf (regs [(1, 0x80), (2, 0xAA), (0xF, 7)]) 0x812E)
    (fun t => t.reg 1 == 0 && t.reg 2 == 0xAA && t.reg 0xF == 1) = true := by decide
theorem test_shl_of_vf : ran (stepOf (regs [(0xF, 0x81)]) 0x8F0E) (fun t => t.reg 0xF == 2) = true := by decide

/-! ## Random (95 section 2.4): for the answer B7 -/

theorem test_rnd_masks : (State.reset.rndWith 0xB7 3 0x0F).reg 3 = 0x07 := by decide
theorem test_rnd_takes_one_answer : ran (stepOf State.reset 0xC300)
    (fun t => t.randIx == 1 && t.keyDownIx == 0 && t.keyEventIx == 0) = true := by decide

/-! ## Display (95 section 2.5) -/

theorem test_cls : ran (stepOf { regs [(0xF, 1)] with disp := dispWith 255 0x01 } 0x00E0)
    (fun t => dispByte t.disp 255 == 0 && t.reg 0xF == 1) = true := by decide
theorem test_drw_collision_across_two_bytes :
    ran (stepOf (({ regs [(0, 0x03)] with disp := (dispWith 0 0x0F).setIfInBounds 1 0xF0 }.setI 0x300).storeBytes
      0x300 [0xFF, 0x81]) 0xD012)
    (fun t => dispByte t.disp 0 == 0x10 && dispByte t.disp 1 == 0x10 && dispByte t.disp 8 == 0x10 &&
      dispByte t.disp 9 == 0x20 && t.reg 0xF == 1) = true := by decide +kernel
theorem test_drw_right_edge_clips :
    ran (stepOf (((regs [(0, 0x3C), (1, 0x01)]).setI 0x300).storeBytes 0x300 [0xFF]) 0xD011)
    (fun t => dispByte t.disp 15 == 0x0F && dispByte t.disp 16 == 0 && dispByte t.disp 8 == 0 && t.reg 0xF == 0) = true := by
  decide +kernel
theorem test_drw_fault_keeps_vf :
    ran (stepOf ((regs [(1, 0x1E), (0xF, 5)]).setI 0xFFF) 0xD012)
    (fun t => statusCode t.status == 2 && causeCode t.cause == 3 && t.pc == 0x202 && t.reg 0xF == 5) = true := by
  decide
theorem test_drw_off_screen_reads_nothing :
    ran (stepOf ((regs [(0, 0x40), (0xF, 5)]).setI 0xFFFF) 0xD012)
    (fun t => t.status == .running && t.reg 0xF == 0) = true := by decide
theorem test_drw_vf_as_coordinate :
    ran (stepOf (((regs [(0xF, 9)]).setI 0x300).storeBytes 0x300 [0x80]) 0xDF11)
    (fun t => dispByte t.disp 1 == 0x40 && t.reg 0xF == 0) = true := by decide +kernel
theorem test_read_pixel :
    readPixel 10 1 (State.reset.setDisp (dispWith 9 0x20)) = .ok true ∧
    readPixel 11 1 (State.reset.setDisp (dispWith 9 0x20)) = .ok false ∧
    readPixel 64 0 State.reset = .error (.pixelOutsideDisplay 64 0) := by decide +kernel

/-! ## Keys and timers (95 section 2.6): the key wait for each answer -/

theorem test_skp_asks_the_next_answer :
    exec (.skp 2) (regs [(2, 5)]) = .next ((regs [(2, 5)]).tookKeyDown.skipIf (Config.keyDown 0 5)) := rfl
/-- The query carries all 8 bits, 45 and not 05. -/
theorem test_sknp_asks_with_the_whole_byte :
    exec (.sknp 2) (regs [(2, 0x45)]) = .next ((regs [(2, 0x45)]).tookKeyDown.skipIf (!Config.keyDown 0 0x45)) := rfl
theorem test_skip_for_either_answer :
    (State.reset.advance.skipIf true).pc = 0x204 ∧ (State.reset.advance.skipIf false).pc = 0x202 := by decide
theorem test_key_wait_without_event : (State.reset.advance.keyEventInto none 3).pc = 0x200 := by decide
theorem test_key_wait_stores_whole_code : (State.reset.advance.keyEventInto (some 0xC7) 3).reg 3 = 0xC7 ∧
    (State.reset.advance.keyEventInto (some 0xC7) 3).pc = 0x202 := by decide
theorem test_ld_vx_dt : ran (stepOf (State.reset.setDT 0x3C) 0xF207) (fun t => t.reg 2 == 0x3C) = true := by decide
theorem test_ld_dt_vx : ran (stepOf (regs [(2, 0x3C)]) 0xF215) (fun t => t.dt == 0x3C && t.st == 0) = true := by
  decide
theorem test_ld_st_vx : ran (stepOf (regs [(2, 5)]) 0xF218) (fun t => t.st == 5 && t.dt == 0) = true := by decide
theorem test_tick_stops_at_zero : (timerTick (State.reset.setDT 2)).dt = 1 ∧ (timerTick (State.reset.setDT 2)).st = 0 := by
  decide
theorem test_set_delay_timer : (setDelayTimer 0x80 State.reset).dt = 0x80 := by decide

/-! ## Index and memory (95 section 2.7) -/

theorem test_add_i_wraps : ran (stepOf ((regs [(2, 2)]).setI 0xFFFF) 0xF21E) (fun t => t.i == 1) = true := by decide
theorem test_add_i_sets_no_flag : ran (stepOf ((regs [(2, 1), (0xF, 3)]).setI 0xFFF) 0xF21E)
    (fun t => t.i == 0x1000 && t.reg 0xF == 3) = true := by decide
theorem test_ld_f_low_nibble : ran (stepOf (regs [(3, 0x1A)]) 0xF329) (fun t => t.i == 0x32) = true := by decide
theorem test_bcd_at_the_top : ran (stepOf ((regs [(4, 0x7B)]).setI 0xFFD) 0xF433)
    (fun t => [t.byteAt 0xFFD, t.byteAt 0xFFE, t.byteAt 0xFFF] == [1, 2, 3] && t.status == .running) = true := by
  decide
theorem test_bcd_past_the_top : ran (stepOf ((regs [(4, 0x7B)]).setI 0xFFE) 0xF433)
    (fun t => statusCode t.status == 2 && causeCode t.cause == 3 && t.byteAt 0xFFE == 0) = true := by decide
theorem test_store_regs : ran (stepOf ((regs [(0, 0x6A), (1, 0x2A)]).setI 0x208) 0xF155)
    (fun t => t.byteAt 0x208 == 0x6A && t.byteAt 0x209 == 0x2A && t.byteAt 0x20A == 0 && t.i == 0x208) = true := by
  decide
theorem test_store_regs_writes_nothing_on_fault : ran (stepOf ((regs [(0, 0xA0)]).setI 0xFF1) 0xFF55)
    (fun t => statusCode t.status == 2 && t.byteAt 0xFF1 == 0) = true := by decide
theorem test_load_regs_from_the_font : ran (stepOf State.reset 0xF465)
    (fun t => [t.reg 0, t.reg 1, t.reg 2, t.reg 3, t.reg 4, t.reg 5] == [0xF0, 0x90, 0x90, 0x90, 0xF0, 0] && t.i == 0) = true := by
  decide
theorem test_load_regs_fault_keeps_registers : ran (stepOf ((regs [(0, 0x11), (1, 0x22)]).setI 0xFFF) 0xF165)
    (fun t => causeCode t.cause == 3 && t.reg 0 == 0x11 && t.reg 1 == 0x22) = true := by decide

/-! ## Unrecognised words, stops, reset, load (95 sections 2.8, 2.9, S9) -/

theorem test_nop_does_not_skip : ran (stepOf (regs [(1, 7), (2, 7)]) 0x5121)
    (fun t => t.pc == 0x202 && t.reg 1 == 7 && t.reg 0xF == 0) = true := by decide
theorem test_last_fetch : ran (stepOf (State.reset.setPc 0xFFE) 0x6011)
    (fun t => t.reg 0 == 0x11 && t.pc == 0x1000 && t.status == .running) = true := by decide
theorem test_past_the_top_halts : ran (step (State.reset.setPc 0xFFF))
    (fun t => statusCode t.status == 1 && causeCode t.cause == 1 && t.pc == 0xFFF) = true := by decide
theorem test_stopped_core_ticks : (timerTick ((State.reset.setDT 5).halt .haltStackEmpty)).dt = 4 ∧
    (timerTick ((State.reset.setDT 5).halt .haltStackEmpty)).status = .halted := by decide
theorem test_peek : peekNextOpcode (State.reset.storeBytes 0x200 [0x6A, 0x07]) = .ok 0x6A07 := by decide
theorem test_load_fills_normal_mode : imageTooLarge (List.replicate 3584 0) false = false ∧
    imageTooLarge (List.replicate 3585 0) false = true := by
  simp only [imageTooLarge, List.length_replicate, loadBase]; decide
theorem test_load_fills_override_mode : imageTooLarge (List.replicate 4096 0) true = false ∧
    imageTooLarge (List.replicate 4097 0) true = true := by
  simp only [imageTooLarge, List.length_replicate, loadBase]; decide
theorem test_reset_stops_counting : (resetBlock ((regs [(3, 9)]).halt .haltPcTop)).status = .running ∧
    (resetBlock ((regs [(3, 9)]).halt .haltPcTop)).reg 3 = 0 := by decide
/-- Writing the value an unlisted address reads as removes its entry (the canonical form). -/
theorem test_store_of_the_reset_byte_lists_nothing :
    ((State.reset.storeBytes 0x300 [0x55]).storeBytes 0x300 [0x00]).mem = [] := by decide

/-! ## Witnesses: for every statement with hypotheses, a case that meets them, a boundary for every clause -/

theorem test_witness_EncodeThenDecode : wellFormed (.nop 0xFFFF) = true ∧ wellFormed (.storeRegs 0xF) = true := by decide

theorem test_witness_NoWordSelectsTwoRows :
    (0xFFFF, 0x00E0) ∈ opcodeRows ∧ selects 0x00E0 (0xFFFF, 0x00E0) = true ∧
    (0xF0FF, 0xF065) ∈ opcodeRows ∧ selects 0xFF65 (0xF0FF, 0xF065) = true := by decide

theorem test_witness_StrictDecoder : recognised 0x00E0 = true ∧ recognised 0x00E1 = false := by decide

/-- Also for PlacedWordIsTheOneRun, whose hypotheses are the first two. -/
theorem test_witness_StepRuns_at_the_last_address :
    (State.reset.setPc 0xFFE).status = .running ∧ (State.reset.setPc 0xFFE).pc.toNat ≤ 0xFFE ∧
    decode [(State.reset.setPc 0xFFE).byteAt 0xFFE, (State.reset.setPc 0xFFE).byteAt (0xFFE + 1)] = .ok (.nop 0, []) := by
  decide

theorem test_witness_StepPastTheTop :
    (State.reset.setPc 0xFFF).status = .running ∧ (State.reset.setPc 0xFFF).pc.toNat > 0xFFE ∧
    (State.reset.setPc 0xFFFF).pc.toNat > 0xFFE := by decide

theorem test_witness_StoppedCore :
    (State.reset.halt .haltPcTop).status ≠ .running ∧ (State.reset.raiseFault .faultMemRange).status ≠ .running := by decide

theorem test_witness_PcAfterAStep :
    ∃ t, (State.reset.setPc 0xFFE).status = .running ∧ (State.reset.setPc 0xFFE).pc.toNat ≤ 0xFFE ∧
      step (State.reset.setPc 0xFFE) = .next t := ⟨_, by decide, by decide, rfl⟩

theorem test_witness_RetPops : 0 < (withDepth 1).sp.val ∧ 0 < (withDepth 16).sp.val := by decide

theorem test_witness_RetOnEmptyStack :
    (State.reset.placeWord 0x00EE).status = .running ∧ (State.reset.placeWord 0x00EE).pc.toNat ≤ 0xFFE ∧
    decodeWord (State.reset.placeWord 0x00EE).fetchWord = .ret ∧ (State.reset.placeWord 0x00EE).sp.val = 0 := by
  decide

theorem test_witness_Call_free_and_full :
    (withDepth 0).sp.val < 16 ∧ (withDepth 15).sp.val < 16 ∧ (withDepth 16).sp.val = 16 := by decide

theorem test_witness_NestedCalls :
    (withDepth 0).sp.val + (List.replicate 16 (0x200 : Addr)).length ≤ 16 ∧
    (withDepth 16).sp.val + ([] : List Addr).length ≤ 16 := by decide

/-- For the clauses of the additions, subtractions and shifts on `x`. -/
theorem test_witness_flag_and_result_apart : (0xE : Nibble) ≠ 0xF ∧ (0 : Nibble) ≠ 0xF := by decide

theorem test_witness_Draw_no_row :
    rowsOnScreen ((regs [(0, 64)]).reg 0) ((regs [(0, 64)]).reg 1) 0xF = 0 ∧
    rowsOnScreen (State.reset.reg 0) (State.reset.reg 1) 0 = 0 := by decide

theorem test_witness_Draw_last_rows_in_memory :
    (State.reset.setI 0xFFF).i.toNat + rowsOnScreen (State.reset.reg 0) (State.reset.reg 1) 1 ≤ 0x1000 ∧
    (State.reset.setI 0xFF1).i.toNat + rowsOnScreen (State.reset.reg 0) (State.reset.reg 1) 0xF ≤ 0x1000 := by decide

theorem test_witness_DrawPastMemory :
    0 < rowsOnScreen (State.reset.reg 0) (State.reset.reg 1) 1 ∧
    (State.reset.setI 0x1000).i.toNat + rowsOnScreen (State.reset.reg 0) (State.reset.reg 1) 1 > 0x1000 ∧
    (State.reset.setI 0xFFF).i.toNat + rowsOnScreen (State.reset.reg 0) (State.reset.reg 1) 2 > 0x1000 := by decide

theorem test_witness_DrawWithNothingOnScreen :
    ((regs [(0, 64)]).reg 0).toNat ≥ 64 ∧ ((regs [(1, 32)]).reg 1).toNat ≥ 32 ∧ (0 : Nibble) = 0 := by decide

theorem test_witness_DrawingTwice :
    ∃ t u, (0 : Nibble) ≠ 0xF ∧ (1 : Nibble) ≠ 0xF ∧ exec (.drw 0 1 1) (State.reset.setI 0xFFF) = .next t ∧
      exec (.drw 0 1 1) t = .next u := ⟨_, _, by decide, by decide, rfl, rfl⟩

theorem test_witness_DelayTimerOnlyCountsDown :
    ∃ t u, happen .timerTick State.reset = .next t ∧ happen .step State.reset = .next u ∧
      (∀ x, decodeWord State.reset.fetchWord ≠ .ldDTVx x) ∧ (∀ b, Event.step ≠ .setDT b) ∧ (∀ b, Event.timerTick ≠ .setDT b) ∧
      Event.step ≠ .reset ∧ Event.timerTick ≠ .reset :=
  ⟨_, _, rfl, rfl, by decide, fun _ => nofun, fun _ => nofun, nofun, nofun⟩

theorem test_witness_DrawingAGlyph :
    ∃ t u, (5 : Nibble).toNat ≤ 5 ∧ exec (.ldF 0) (regs [(0, 0xF)]) = .next t ∧ exec (.drw 1 2 5) t = .next u :=
  ⟨_, _, by decide, rfl, rfl⟩

theorem test_witness_Bcd : (State.reset.setI 0xFFD).i.toNat + 2 ≤ 0xFFF := by decide

/-- For the block store and load, with the registers on either side of `x`. -/
theorem test_witness_Blocks :
    (State.reset.setI 0xFF0).i.toNat + (0xF : Nibble).toNat ≤ 0xFFF ∧ (State.reset.setI 0xFFF).i.toNat + (0 : Nibble).toNat ≤ 0xFFF ∧
    (0 : Nibble).toNat ≤ (0 : Nibble).toNat ∧ (1 : Nibble).toNat > (0 : Nibble).toNat := by decide

theorem test_witness_MemoryInstructionsPastMemory :
    (State.reset.setI 0xFFE).i.toNat + 2 > 0xFFF ∧ (State.reset.setI 0xFF1).i.toNat + (0xF : Nibble).toNat > 0xFFF ∧
    (State.reset.setI 0x1000).i.toNat + (0 : Nibble).toNat > 0xFFF := by decide

theorem test_witness_StoredBytesAreFetched :
    1 ≤ (1 : Nibble).toNat ∧ (State.reset.setI 0xFFE).i.toNat + (1 : Nibble).toNat ≤ 0xFFF := by decide

theorem test_witness_UnrecognisedWords :
    (State.reset.setPc 0xFFE).status = .running ∧ (State.reset.setPc 0xFFE).pc.toNat ≤ 0xFFE ∧
    recognised (State.reset.setPc 0xFFE).fetchWord = false := by decide

theorem test_witness_InstructionsWriteOnly :
    ∃ t, stopCause (.storeRegs 0xF) (State.reset.setI 0xFF0) = none ∧
      exec (.storeRegs 0xF) (State.reset.setI 0xFF0) = .next t := ⟨_, by decide, rfl⟩

/-- Every condition at its boundary, and one that does not hold. -/
theorem test_witness_Stops :
    stopCause .ret State.reset = some .haltStackEmpty ∧ stopCause (.call 0x200) (withDepth 16) = some .faultStackOverflow ∧
    stopCause (.drw 0 1 2) (State.reset.setI 0xFFF) = some .faultMemRange ∧
    stopCause (.ldB 0) (State.reset.setI 0xFFE) = some .faultMemRange ∧
    stopCause (.storeRegs 0xF) (State.reset.setI 0xFF1) = some .faultMemRange ∧
    stopCause (.loadRegs 0) (State.reset.setI 0x1000) = some .faultMemRange ∧ stopCause .cls State.reset = none := by decide

theorem test_witness_VFIsNeverRead :
    ∃ t u, (0xF : Nibble) ∉ readsOf (.addReg 1 2) ∧ exec (.addReg 1 2) State.reset = .next t ∧
      exec (.addReg 1 2) (State.reset.setReg 0xF 0x55) = .next u := ⟨_, _, by decide, rfl, rfl⟩

/-- For the memory, PC and event invariants: a state with a listed byte, a pushed return address and PC at its largest. -/
theorem test_witness_Invariants : ∃ t,
    ({ State.reset with mem := [(0x300, 0x55)], sp := 1, stack := State.reset.stack.set 0 0x1000, pc := 0x10FE } : State).Inv ∧
    step { State.reset with mem := [(0x300, 0x55)], sp := 1, stack := State.reset.stack.set 0 0x1000, pc := 0x10FE } = .next t ∧
    happen .step { State.reset with mem := [(0x300, 0x55)], sp := 1, stack := State.reset.stack.set 0 0x1000, pc := 0x10FE } =
      .next t := ⟨_, by decide, rfl, rfl⟩

theorem test_witness_Load_sizes :
    (List.replicate 3584 (1 : Byte)).length ≤ 4096 - (if false then 0x000 else 0x200) ∧
    (List.replicate 4096 (1 : Byte)).length ≤ 4096 - (if true then 0x000 else 0x200) ∧
    (List.replicate 3585 (1 : Byte)).length > 4096 - (if false then 0x000 else 0x200) ∧
    (List.replicate 4097 (1 : Byte)).length > 4096 - (if true then 0x000 else 0x200) := by
  simp only [List.length_replicate]; decide

theorem test_witness_Accessors :
    ((63 : Nat) < 64 ∧ (31 : Nat) < 32) ∧ ((64 : Nat) ≥ 64) ∧ ((32 : Nat) ≥ 32) ∧
    (State.reset.setPc 0xFFE).pc.toNat ≤ 0xFFE ∧ (State.reset.setPc 0xFFF).pc.toNat > 0xFFE := by decide

end Sys2Proof.Tests
end

section
/-! SUPPORT. Frames (spec/10_state.md R39). Each update of the state leaves as it was everything outside ANY footprint that
names the piece it writes; the frame of a meaning is put together from these with `Leaves.trans`. -/

namespace Sys2Proof.Machine

variable {f : Footprint} {s t u : State}

/-- Updates made one after the other, each within a footprint, are together within it. -/
theorem Leaves.trans (hst : Leaves f s t) (htu : Leaves f t u) : Leaves f s u := by
  obtain ⟨regs, index, pc, stack, delay, sound, memory, display, status, rand, keyDown, keyEvent⟩ := hst
  obtain ⟨regs', index', pc', stack', delay', sound', memory', display', status', rand', keyDown', keyEvent'⟩ := htu
  exact ⟨fun r hr => (regs' r hr).trans (regs r hr), fun h => (index' h).trans (index h), fun h => (pc' h).trans (pc h),
    fun h => ⟨(stack' h).1.trans (stack h).1, (stack' h).2.trans (stack h).2⟩, fun h => (delay' h).trans (delay h),
    fun h => (sound' h).trans (sound h), fun a ha => (memory' a ha).trans (memory a ha),
    fun h => (display' h).trans (display h),
    fun h => ⟨(status' h).1.trans (status h).1, (status' h).2.trans (status h).2⟩, fun h => (rand' h).trans (rand h),
    fun h => (keyDown' h).trans (keyDown h), fun h => (keyEvent' h).trans (keyEvent h)⟩

/-! ## Single updates -/

theorem leaves_setReg {r : Nibble} (b : Byte) (h : r ∈ f.regs) : Leaves f s (s.setReg r b) := by
  have other : ∀ q, q ∉ f.regs → (s.setReg r b).reg q = s.reg q := fun q hq =>
    s.reg_setReg_other b (ne_of_mem_of_not_mem h hq).symm
  simpa [Leaves] using other

theorem leaves_setRegs {v : RegFile} (h : ∀ r, r ∉ f.regs → (s.setRegs v).reg r = s.reg r) :
    Leaves f s (s.setRegs v) := by
  simpa [Leaves] using h

theorem leaves_setI (w : Word) (h : f.index = true) : Leaves f s (s.setI w) := by simp [Leaves, h]

theorem leaves_setPc (w : Word) (h : f.pc = true) : Leaves f s (s.setPc w) := by simp [Leaves, h]

theorem leaves_setDT (b : Byte) (h : f.delay = true) : Leaves f s (s.setDT b) := by simp [Leaves, h]

theorem leaves_setST (b : Byte) (h : f.sound = true) : Leaves f s (s.setST b) := by simp [Leaves, h]

theorem leaves_setDisp (d : Display) (h : f.display = true) : Leaves f s (s.setDisp d) := by simp [Leaves, h]

theorem leaves_push (w : Word) (hsp : s.sp.val < Config.stackDepth) (h : f.stack = true) : Leaves f s (s.push w hsp) := by
  simp [Leaves, h]

theorem leaves_drop (h : f.stack = true) : Leaves f s s.drop := by simp [Leaves, h]

theorem leaves_tookRand (h : f.rand = true) : Leaves f s s.tookRand := by simp [Leaves, h]

theorem leaves_tookKeyDown (h : f.keyDown = true) : Leaves f s s.tookKeyDown := by simp [Leaves, h]

theorem leaves_tookKeyEvent (h : f.keyEvent = true) : Leaves f s s.tookKeyEvent := by simp [Leaves, h]

theorem leaves_storeBytes {base : Nat} {bs : List Byte} (h : ∀ a, base ≤ a → a < base + bs.length → a ∈ f.memory) :
    Leaves f s (s.storeBytes base bs) := by
  have outside : ∀ a, a ∉ f.memory → (s.storeBytes base bs).byteAt a = s.byteAt a := by
    intro a ha
    have : a < base ∨ base + bs.length ≤ a := by
      by_contra hin
      exact ha (h a (by omega) (by omega))
    exact s.byteAt_storeBytes_outside base a bs this
  simpa [Leaves] using outside

/-! ## Updates that several meanings share -/

theorem leaves_skipIf (c : Bool) (h : f.pc = true) : Leaves f s (s.skipIf c) := by
  rw [State.skipIf_eq]
  exact leaves_setPc _ h

theorem leaves_resultThenFlag {x : Nibble} (result : Byte) (flag : Bool) (hx : x ∈ f.regs) (hF : 0xF ∈ f.regs) :
    Leaves f s (s.resultThenFlag x result flag) :=
  (leaves_setReg result hx).trans (leaves_setReg (flagByte flag) hF)

theorem leaves_shiftRight {x : Nibble} (hx : x ∈ f.regs) (hF : 0xF ∈ f.regs) : Leaves f s (s.shiftRight x) :=
  (leaves_setReg _ hF).trans (leaves_setReg _ hx)

theorem leaves_shiftLeft {x : Nibble} (hx : x ∈ f.regs) (hF : 0xF ∈ f.regs) : Leaves f s (s.shiftLeft x) :=
  (leaves_setReg _ hF).trans (leaves_setReg _ hx)

theorem leaves_keyEventInto {x : Nibble} (e : Option Byte) (hx : x ∈ f.regs) (hpc : f.pc = true) :
    Leaves f s (s.keyEventInto e x) := by
  obtain ⟨-, hnone⟩ | ⟨code, -, hsome⟩ := s.keyEventInto_cases e x
  · rw [hnone]; exact leaves_setPc _ hpc
  · rw [hsome]; exact leaves_setReg code hx

/-- A block stored from `I` on writes the addresses the row of the store names (R199, R202, R203). -/
theorem leaves_storeBytes_effAddr {bs : List Byte} {count : Nat} (hlen : bs.length = count)
    (hf : f.memory = s.addrsFromI count) : Leaves f s (s.storeBytes (s.effAddr 0) bs) := by
  refine leaves_storeBytes fun a hlo hhi => ?_
  rw [hf, s.mem_addrsFromI]
  simp only [State.effAddr] at hlo hhi
  omega

/-- A block load writes V0 to Vx and no register above (R204). -/
theorem leaves_loadInto {x : Nibble} (m : Mem) (base : Nat) (hf : f.regs = regsThrough x) :
    Leaves f s (s.setRegs (loadInto m base (x.toNat + 1) s.v)) := by
  refine leaves_setRegs fun r hr => ?_
  have above : ¬ r.toNat < x.toNat + 1 := by
    rw [hf, mem_regsThrough] at hr
    omega
  rw [State.reg_loadInto, if_neg above]

/-! ## The instructions that can stop, when they do not (R238) -/

theorem stopCause_ret_eq_none : stopCause .ret s = none ↔ 0 < s.sp.val := by
  simp [stopCause, Nat.pos_iff_ne_zero]

theorem stopCause_call_eq_none (nnn : Addr) : stopCause (.call nnn) s = none ↔ s.sp.val < Config.stackDepth := by
  have hmax : s.sp.val < Config.stackDepth + 1 := s.sp.isLt
  simp only [stopCause, ite_eq_right_iff, reduceCtorEq, imp_false]
  omega

theorem stopCause_drw_eq_none (x y n : Nibble) :
    stopCause (.drw x y n) s = none ↔ s.drawOutOfRange (s.reg x) (s.reg y) n = false := by
  rw [← Bool.not_eq_true, State.drawOutOfRange_iff]
  simp only [stopCause, ite_eq_right_iff, reduceCtorEq, imp_false]
  omega

theorem stopCause_ldB_eq_none (x : Nibble) : stopCause (.ldB x) s = none ↔ s.outOfRange 2 = false := by
  simp [stopCause, State.outOfRange_eq_false]

theorem stopCause_storeRegs_eq_none (x : Nibble) :
    stopCause (.storeRegs x) s = none ↔ s.outOfRange x.toNat = false := by
  simp [stopCause, State.outOfRange_eq_false]

theorem stopCause_loadRegs_eq_none (x : Nibble) :
    stopCause (.loadRegs x) s = none ↔ s.outOfRange x.toNat = false := by
  simp [stopCause, State.outOfRange_eq_false]

theorem exec_ret_of_pos (h : 0 < s.sp.val) : exec .ret s = .next (s.drop.setPc (s.top h)) := dif_pos h

theorem exec_call_of_lt (nnn : Addr) (h : s.sp.val < Config.stackDepth) :
    exec (.call nnn) s = .next ((s.push s.pc h).setPc (addrOperand nnn)) := dif_pos h

theorem exec_drw_of_inRange {x y n : Nibble} (h : s.drawOutOfRange (s.reg x) (s.reg y) n = false) :
    exec (.drw x y n) s = .next (s.drawAt (s.reg x) (s.reg y) n) := by
  simp [exec, execDrw, h]

theorem exec_ldB_of_inRange (x : Nibble) (h : s.outOfRange 2 = false) :
    exec (.ldB x) s = .next (s.storeBytes (s.effAddr 0) (bcdDigits (s.reg x))) := by
  simp [exec, execLdB, h]

theorem exec_storeRegs_of_inRange {x : Nibble} (h : s.outOfRange x.toNat = false) :
    exec (.storeRegs x) s = .next (s.storeBytes (s.effAddr 0) (s.regsUpTo x)) := by
  simp [exec, execStoreRegs, h]

theorem exec_loadRegs_of_inRange {x : Nibble} (h : s.outOfRange x.toNat = false) :
    exec (.loadRegs x) s = .next (s.setRegs (loadInto s.mem (s.effAddr 0) (x.toNat + 1) s.v)) := by
  simp [exec, execLoadRegs, h]

end Sys2Proof.Machine
end

section
/-! The exactness principle (spec/00_scope.md R6, spec/10_state.md R39). -/

namespace Sys2Proof.Machine

/-- An instruction that is not stopped answers a next state, and writes within its row of the table of R39. -/
theorem exec_leaves_writesOf (i : Instr) (s : State) (hgo : stopCause i s = none) :
    ∃ t, exec i s = .next t ∧ Leaves (writesOf i s) s t := by
  cases i with
  | cls => exact ⟨_, rfl, leaves_setDisp _ rfl⟩
  | ret =>
    rw [stopCause_ret_eq_none] at hgo
    exact ⟨_, exec_ret_of_pos hgo, (leaves_drop rfl).trans (leaves_setPc _ rfl)⟩
  | call nnn =>
    rw [stopCause_call_eq_none] at hgo
    exact ⟨_, exec_call_of_lt nnn hgo, (leaves_push _ hgo rfl).trans (leaves_setPc _ rfl)⟩
  | jp | jpV0 => exact ⟨_, rfl, leaves_setPc _ rfl⟩
  | seImm | sneImm | seReg | sneReg => exact ⟨_, rfl, leaves_skipIf _ rfl⟩
  | ldImm | addImm | ldReg | orReg | andReg | xorReg | ldVxDT =>
    exact ⟨_, rfl, leaves_setReg _ (by simp [writesOf])⟩
  | addReg | subReg | subnReg =>
    exact ⟨_, rfl, leaves_resultThenFlag _ _ (by simp [writesOf]) (by simp [writesOf])⟩
  | shr => exact ⟨_, rfl, leaves_shiftRight (by simp [writesOf]) (by simp [writesOf])⟩
  | shl => exact ⟨_, rfl, leaves_shiftLeft (by simp [writesOf]) (by simp [writesOf])⟩
  | ldI | addI | ldF => exact ⟨_, rfl, leaves_setI _ rfl⟩
  | rnd => exact ⟨_, rfl, (leaves_tookRand rfl).trans (leaves_setReg _ (by simp [writesOf]))⟩
  | drw x y n =>
    rw [stopCause_drw_eq_none] at hgo
    exact ⟨_, exec_drw_of_inRange hgo, s.drawAt_frame _ _ n⟩
  | skp | sknp => exact ⟨_, rfl, (leaves_tookKeyDown rfl).trans (leaves_skipIf _ rfl)⟩
  | ldVxK => exact ⟨_, rfl, (leaves_tookKeyEvent rfl).trans (leaves_keyEventInto _ (by simp [writesOf]) rfl)⟩
  | ldDTVx => exact ⟨_, rfl, leaves_setDT _ rfl⟩
  | ldSTVx => exact ⟨_, rfl, leaves_setST _ rfl⟩
  | ldB x =>
    rw [stopCause_ldB_eq_none] at hgo
    exact ⟨_, exec_ldB_of_inRange x hgo, leaves_storeBytes_effAddr rfl rfl⟩
  | storeRegs x =>
    rw [stopCause_storeRegs_eq_none] at hgo
    exact ⟨_, exec_storeRegs_of_inRange hgo, leaves_storeBytes_effAddr (s.regsUpTo_length x) rfl⟩
  | loadRegs x =>
    rw [stopCause_loadRegs_eq_none] at hgo
    exact ⟨_, exec_loadRegs_of_inRange hgo, leaves_loadInto _ _ rfl⟩
  | nop => exact ⟨s, rfl, leaves_refl _ s⟩

/-- Settles O47: the next state is unique, and the one `exec_leaves_writesOf` gives keeps the frame. -/
theorem instructionsWriteOnlyWhatTheirRowNames : Obligations.InstructionsWriteOnlyWhatTheirRowNames := by
  intro i s t hgo hexec
  obtain ⟨u, hu, hframe⟩ := exec_leaves_writesOf i s hgo
  obtain rfl : u = t := next_inj (hu.symm.trans hexec)
  exact hframe

end Sys2Proof.Machine
end

section
/-! What executing an instruction can do (spec/60_exceptions.md R237, R238): stop and write nothing but status and cause,
or write within its row of the table of R39. -/

namespace Sys2Proof.Machine

variable {i : Instr} {s t : State}

/-- An instruction whose stopping condition holds writes status and cause and nothing else. -/
theorem exec_of_stopCause {c : Cause} (h : stopCause i s = some c) : exec i s = .next (s.stop (statusOf c) c) := by
  cases i with
  | ret =>
    obtain ⟨hsp, ⟨⟩⟩ := Option.ite_none_right_eq_some.mp h
    simp [exec, execRet, hsp, statusOf]
  | call nnn =>
    obtain ⟨hsp, ⟨⟩⟩ := Option.ite_none_right_eq_some.mp h
    simp [exec, execCall, hsp, statusOf]
  | drw x y n =>
    have hstop : s.drawOutOfRange (s.reg x) (s.reg y) n = true := by
      rw [← Bool.not_eq_false, ← stopCause_drw_eq_none, h]; exact Option.some_ne_none c
    obtain ⟨-, ⟨⟩⟩ := Option.ite_none_right_eq_some.mp h
    simp [exec, execDrw, hstop, statusOf]
  | ldB x =>
    obtain ⟨hi, ⟨⟩⟩ := Option.ite_none_right_eq_some.mp h
    simp [exec, execLdB, (s.outOfRange_iff _).mpr hi, statusOf]
  | storeRegs x =>
    obtain ⟨hi, ⟨⟩⟩ := Option.ite_none_right_eq_some.mp h
    simp [exec, execStoreRegs, (s.outOfRange_iff _).mpr hi, statusOf]
  | loadRegs x =>
    obtain ⟨hi, ⟨⟩⟩ := Option.ite_none_right_eq_some.mp h
    simp [exec, execLoadRegs, (s.outOfRange_iff _).mpr hi, statusOf]
  | _ => cases h

/-- All that an instruction can do: stop, or keep the frame of its row. -/
theorem exec_cases (h : exec i s = .next t) :
    (∃ c, stopCause i s = some c ∧ t = s.stop (statusOf c) c) ∨
    (stopCause i s = none ∧ Leaves (writesOf i s) s t) := by
  cases hc : stopCause i s with
  | none => exact .inr ⟨rfl, instructionsWriteOnlyWhatTheirRowNames i s t hc h⟩
  | some c => exact .inl ⟨c, rfl, next_inj (h.symm.trans (exec_of_stopCause hc))⟩

/-- PC stays where the fetch's advance left it when the instruction's row does not name PC. -/
theorem exec_pc_of_row (hrow : (writesOf i s).pc = false) (h : exec i s = .next t) : t.pc = s.pc := by
  obtain ⟨c, -, rfl⟩ | ⟨-, -, -, hpc, -⟩ := exec_cases h
  · rfl
  · exact hpc hrow

theorem writesOf_status (i : Instr) (s : State) : (writesOf i s).status = false := by
  cases i <;> rfl

/-- RET and CALL are the instructions whose row names the stack. -/
theorem writesOf_stack (h : (writesOf i s).stack = true) : i = .ret ∨ ∃ nnn, i = .call nnn := by
  cases i with
  | ret => exact .inl rfl
  | call nnn => exact .inr ⟨nnn, rfl⟩
  | _ => cases h

/-- All that an instruction can do to the stack's entries, stale ones included: nothing, or one entry set to PC. -/
theorem exec_stack_cases (h : exec i s = .next t) :
    t.stack = s.stack ∨ ∃ hsp : s.sp.val < Config.stackDepth, t.stack = s.stack.set s.sp.val s.pc hsp := by
  obtain ⟨c, -, rfl⟩ | ⟨hgo, -, -, -, hstack, -⟩ := exec_cases h
  · exact .inl rfl
  · cases hrow : (writesOf i s).stack with
    | false => exact .inl (hstack hrow).1
    | true =>
      obtain rfl | ⟨nnn, rfl⟩ := writesOf_stack hrow
      · rw [stopCause_ret_eq_none] at hgo
        obtain rfl := next_inj ((exec_ret_of_pos hgo).symm.trans h)
        exact .inl rfl
      · rw [stopCause_call_eq_none] at hgo
        obtain rfl := next_inj ((exec_call_of_lt nnn hgo).symm.trans h)
        exact .inr ⟨hgo, rfl⟩

/-- An instruction keeps status and cause in agreement (R36). -/
theorem exec_keeps_causeFits (hs : s.CauseFits) (h : exec i s = .next t) : t.CauseFits := by
  obtain ⟨c, -, rfl⟩ | ⟨-, -, -, -, -, -, -, -, -, hstatus, -⟩ := exec_cases h
  · rfl
  · obtain ⟨hst, hca⟩ := hstatus (writesOf_status i s)
    rw [State.CauseFits, hst, hca]
    exact hs

/-! ## Memory: no instruction writes it but by storing bytes -/

theorem State.skipIf_mem (s : State) (c : Bool) : (s.skipIf c).mem = s.mem := by
  cases c <;> rfl

theorem State.keyEventInto_mem (s : State) (e : Option Byte) (x : Nibble) : (s.keyEventInto e x).mem = s.mem := by
  cases e <;> rfl

/-- An instruction that is not stopped leaves the list that holds memory alone, or stores bytes into it. -/
theorem exec_mem_of_go (i : Instr) (s : State) (hgo : stopCause i s = none) :
    ∃ t, exec i s = .next t ∧ (t.mem = s.mem ∨ ∃ a bs, t.mem = memWriteAll s.mem a bs) := by
  cases i with
  | ret =>
    rw [stopCause_ret_eq_none] at hgo
    exact ⟨_, exec_ret_of_pos hgo, .inl rfl⟩
  | call nnn =>
    rw [stopCause_call_eq_none] at hgo
    exact ⟨_, exec_call_of_lt nnn hgo, .inl rfl⟩
  | seImm | sneImm | seReg | sneReg | skp | sknp => exact ⟨_, rfl, .inl (State.skipIf_mem _ _)⟩
  | ldVxK => exact ⟨_, rfl, .inl (State.keyEventInto_mem _ _ _)⟩
  | drw x y n =>
    rw [stopCause_drw_eq_none] at hgo
    exact ⟨_, exec_drw_of_inRange hgo, .inl rfl⟩
  | ldB x =>
    rw [stopCause_ldB_eq_none] at hgo
    exact ⟨_, exec_ldB_of_inRange x hgo, .inr ⟨_, _, rfl⟩⟩
  | storeRegs x =>
    rw [stopCause_storeRegs_eq_none] at hgo
    exact ⟨_, exec_storeRegs_of_inRange hgo, .inr ⟨_, _, rfl⟩⟩
  | loadRegs x =>
    rw [stopCause_loadRegs_eq_none] at hgo
    exact ⟨_, exec_loadRegs_of_inRange hgo, .inl rfl⟩
  | _ => exact ⟨_, rfl, .inl rfl⟩

theorem exec_keeps_memory_canonical (hs : s.mem.wf = true) (h : exec i s = .next t) : t.mem.wf = true := by
  obtain ⟨c, -, rfl⟩ | ⟨hgo, -⟩ := exec_cases h
  · exact hs
  · obtain ⟨u, hu, hmem⟩ := exec_mem_of_go i s hgo
    obtain rfl : u = t := next_inj (hu.symm.trans h)
    obtain hkept | ⟨a, bs, hstored⟩ := hmem
    · rwa [hkept]
    · rw [hstored]
      exact memWriteAll_keeps_wf bs a hs

/-- Settles O50: of a step's three cases only the execution of an instruction can write memory. -/
theorem stepKeepsMemoryCanonical : Obligations.StepKeepsMemoryCanonical := by
  intro s t hs hstep
  obtain ⟨-, rfl⟩ | ⟨-, -, rfl⟩ | ⟨-, -, hexec⟩ := stepWith_cases hstep
  · exact hs
  · exact hs
  · exact exec_keeps_memory_canonical (s := s.advance) hs hexec

end Sys2Proof.Machine
end

section
/-! The program counter and the return addresses (spec/10_state.md R26, R27). -/

namespace Sys2Proof.Machine

variable {i : Instr} {s t : State}

/-- PC after the fetch's advance and the execution of any instruction is the table's, and no sum wraps (R26, R27). -/
theorem exec_advance_pc (hpc : s.pc.toNat ≤ 0xFFE) (h : exec i s.advance = .next t) : t.pc.toNat = pcAfter i s := by
  have two : (s.pc + 2).toNat = s.pc.toNat + 2 := by bv_omega
  have four : (s.pc + 2 + 2).toNat = s.pc.toNat + 4 := by bv_omega
  cases i with
  | jp nnn =>
    obtain rfl := next_inj h
    exact addrOperand_toNat nnn
  | jpV0 nnn =>
    obtain rfl := next_inj h
    have hreg := (s.reg 0).isLt
    have hnnn := nnn.isLt
    have hsum : (s.regExtended 0 + addrOperand nnn).toNat = (s.reg 0).toNat + nnn.toNat := by
      rw [BitVec.toNat_add, State.regExtended_toNat, addrOperand_toNat]
      omega
    exact hsum
  | call nnn =>
    by_cases hsp : s.sp.val < Config.stackDepth
    · obtain rfl := next_inj ((exec_call_of_lt (s := s.advance) nnn hsp).symm.trans h)
      exact (addrOperand_toNat nnn).trans (if_neg hsp.ne).symm
    · have hfull : s.sp.val = Config.stackDepth := by have := s.sp.isLt; omega
      obtain rfl := next_inj ((exec_of_stopCause (i := .call nnn) (s := s.advance) (if_pos hfull)).symm.trans h)
      exact two.trans (if_pos hfull).symm
  | ret =>
    by_cases hsp : 0 < s.sp.val
    · obtain rfl := next_inj ((exec_ret_of_pos (s := s.advance) hsp).symm.trans h)
      have htable : pcAfter .ret s = (s.top hsp).toNat := by simp [pcAfter, hsp]
      exact htable.symm
    · have hempty : s.sp.val = 0 := by omega
      obtain rfl := next_inj ((exec_of_stopCause (i := .ret) (s := s.advance) (if_pos hempty)).symm.trans h)
      have htable : pcAfter .ret s = s.pc.toNat + 2 := by simp [pcAfter, hsp]
      exact two.trans htable.symm
  | seImm | sneImm | seReg | sneReg | skp | sknp =>
    obtain rfl := next_inj h
    simp only [State.skipIf_eq, State.advance_eq, State.setPc_pc, State.setPc_reg, State.setPc_keyDownIx,
      State.tookKeyDown_pc, apply_ite BitVec.toNat, two, four, pcAfter]
  | ldVxK x =>
    obtain rfl := next_inj h
    obtain ⟨he, hnext⟩ | ⟨code, he, hnext⟩ :=
      s.advance.tookKeyEvent.keyEventInto_cases (Config.keyEvent s.keyEventIx) x
    · have hback : s.pc + 2 - 2 = s.pc := BitVec.add_sub_cancel _ _
      exact (congrArg (·.pc.toNat) hnext).trans ((congrArg BitVec.toNat hback).trans (if_pos he).symm)
    · have hevent : Config.keyEvent s.keyEventIx ≠ none := by simp [he]
      exact (congrArg (·.pc.toNat) hnext).trans (two.trans (if_neg hevent).symm)
  | _ => exact (congrArg BitVec.toNat (exec_pc_of_row rfl h)).trans two

/-- Settles O12: a running core with PC at most 0xFFE executes the fetched instruction. -/
theorem pcAfterAStepIsTheTables : Obligations.PcAfterAStepIsTheTables := by
  intro s t hrun hpc hstep
  obtain ⟨hstop, -⟩ | ⟨-, htop, -⟩ | ⟨-, -, hexec⟩ := stepWith_cases hstep
  · exact absurd hrun hstop
  · omega
  · exact exec_advance_pc hpc hexec

/-- The table's PC never exceeds 0x10FE, the target of `JP V0` with its largest operands (R27). -/
theorem pcAfter_le (i : Instr) (hs : s.PcBounded) (hpc : s.pc.toNat ≤ 0xFFE) : pcAfter i s ≤ 0x10FE := by
  cases i with
  | jp nnn =>
    have := nnn.isLt
    simp only [pcAfter]
    omega
  | jpV0 nnn =>
    have hreg := (s.reg 0).isLt
    have hnnn := nnn.isLt
    simp only [pcAfter]
    omega
  | call nnn =>
    have := nnn.isLt
    simp only [pcAfter]
    split <;> omega
  | ret =>
    simp only [pcAfter]
    split
    · have htop : (s.top ‹_›).toNat ≤ 0x1000 := hs.2 ⟨s.sp.val - 1, by have := s.sp.isLt; omega⟩
      omega
    · omega
  | seImm | sneImm | seReg | sneReg | skp | sknp | ldVxK =>
    simp only [pcAfter]
    split <;> omega
  | _ => simp only [pcAfter]; omega

/-- An instruction executed after the fetch's advance keeps the bound on the stack's entries: the one entry it may set is
the advanced PC (R27). -/
theorem exec_advance_keeps_entries (hs : s.PcBounded) (hpc : s.pc.toNat ≤ 0xFFE) (h : exec i s.advance = .next t)
    (k : Fin Config.stackDepth) : (t.stack[k.val]'k.isLt).toNat ≤ 0x1000 := by
  obtain ⟨-, hentries⟩ := hs
  obtain hkept | ⟨hsp, hset⟩ := exec_stack_cases h
  · simpa [hkept] using hentries k
  · have hpushed : (s.pc + 2).toNat ≤ 0x1000 := by bv_omega
    simp only [hset, Vector.getElem_set]
    split
    · exact hpushed
    · exact hentries k

/-- Settles O51: PC by the table, the entries because only the advanced PC of a CALL is pushed. -/
theorem stepKeepsPcAndReturnAddressesBounded : Obligations.StepKeepsPcAndReturnAddressesBounded := by
  intro s t hs hstep
  obtain ⟨-, rfl⟩ | ⟨-, -, rfl⟩ | ⟨-, hpc, hexec⟩ := stepWith_cases hstep
  · exact hs
  · exact hs
  · exact ⟨(exec_advance_pc hpc hexec).trans_le (pcAfter_le _ hs hpc), exec_advance_keeps_entries hs hpc hexec⟩

end Sys2Proof.Machine
end

section
/-! The invariants together, over every event (spec/10_state.md R27, R36). -/

namespace Sys2Proof.Machine

variable {s t : State}

theorem step_keeps_causeFits (hs : s.CauseFits) (h : step s = .next t) : t.CauseFits := by
  obtain ⟨-, rfl⟩ | ⟨-, -, rfl⟩ | ⟨-, -, hexec⟩ := stepWith_cases h
  · exact hs
  · rfl
  · exact exec_keeps_causeFits (s := s.advance) hs hexec

theorem step_keeps_inv (hs : s.Inv) (h : step s = .next t) : t.Inv := by
  obtain ⟨hmem, hcause, hpc⟩ := hs
  exact ⟨stepKeepsMemoryCanonical s t hmem h, step_keeps_causeFits hcause h,
    stepKeepsPcAndReturnAddressesBounded s t hpc h⟩

theorem load_keeps_inv (bytes : List Byte) (overrideReserved : Bool) (hs : s.Inv) :
    (load bytes overrideReserved s).1.Inv := by
  obtain ⟨-, hl⟩ | ⟨-, hl⟩ := load_cases bytes overrideReserved s <;> rw [hl]
  · exact hs
  · obtain ⟨hmem, hrest⟩ := hs
    exact ⟨memWriteAll_keeps_wf bytes _ hmem, hrest⟩

/-- Settles O53: a closed fact about the reset state. -/
theorem resetMeetsTheInvariants : Obligations.ResetMeetsTheInvariants := by
  unfold Obligations.ResetMeetsTheInvariants
  decide

/-- Settles O52, event by event: a step and a load by their own lemmas, Reset because the invariants read no counter, and
the timers because no invariant reads them. -/
theorem everyEventKeepsTheInvariants : Obligations.EveryEventKeepsTheInvariants := by
  intro e s t hs h
  cases e with
  | step => exact step_keeps_inv hs h
  | reset =>
    obtain rfl := next_inj h
    exact resetMeetsTheInvariants
  | load bytes overrideReserved =>
    obtain rfl := next_inj h
    exact load_keeps_inv bytes overrideReserved hs
  | timerTick | setDT | setST =>
    obtain rfl := next_inj h
    exact hs

end Sys2Proof.Machine
end

section
/-! VF is never read implicitly (spec/10_state.md R22, R39). -/

namespace Sys2Proof.Machine

variable {i : Instr} {b : Byte} {s : State}

/-! ## Register writes commute with what does not read the register -/

theorem State.setReg_setReg_same (s : State) (r : Nibble) (b c : Byte) : (s.setReg r b).setReg r c = s.setReg r c := by
  simp [State.setReg]

theorem State.setReg_comm (s : State) {q r : Nibble} (b c : Byte) (h : q ≠ r) :
    (s.setReg r b).setReg q c = (s.setReg q c).setReg r b := by
  have hne : r.toNat ≠ q.toNat := fun hn => h (BitVec.eq_of_toNat_eq hn.symm)
  simp [State.setReg, Vector.set_comm _ _ hne]

theorem State.setDisp_setReg (s : State) (r : Nibble) (b : Byte) (d : Display) :
    (s.setReg r b).setDisp d = (s.setDisp d).setReg r b := rfl

theorem State.skipIf_setReg (s : State) (r : Nibble) (b : Byte) (c : Bool) :
    (s.setReg r b).skipIf c = (s.skipIf c).setReg r b := by
  cases c <;> rfl

theorem State.reg_skipIf (s : State) (q : Nibble) (c : Bool) : (s.skipIf c).reg q = s.reg q := by
  cases c <;> rfl

/-- A register above the block of a store is not in the block. -/
theorem State.regsUpTo_setReg (s : State) {x r : Nibble} (b : Byte) (h : x.toNat < r.toNat) :
    (s.setReg r b).regsUpTo x = s.regsUpTo x := by
  simp [State.regsUpTo, Vector.toList_set, List.take_set_of_le (Nat.succ_le_of_lt h)]

/-- The registers after a block load, when one of them was set before it (R204). -/
theorem loadInto_set (m : Mem) (base count : Nat) (v : RegFile) {r : Nat} (b : Byte) (hr : r < 16) :
    loadInto m base count (v.set r b hr) =
      if r < count then loadInto m base count v else (loadInto m base count v).set r b hr := by
  apply Vector.ext
  intro k hk
  by_cases hr' : r < count
  · have hne : ¬ k < count → r ≠ k := by omega
    rw [if_pos hr', loadInto_getElem, loadInto_getElem]
    exact ite_congr rfl (fun _ => rfl) fun hout => Vector.getElem_set_ne _ _ (hne hout)
  · have hne : k < count → r ≠ k := by omega
    rw [if_neg hr', loadInto_getElem, Vector.getElem_set, Vector.getElem_set, loadInto_getElem]
    by_cases hin : k < count
    · simp [hin, hne hin]
    · simp [hin]

/-- A register set before a block load is the same as one set after it when the load does not reach it, and leaves no
trace when it does (R204). -/
theorem State.setRegs_loadInto_setReg (s : State) (m : Mem) (base count : Nat) (r : Nibble) (b : Byte) :
    (s.setReg r b).setRegs (loadInto m base count (s.setReg r b).v) =
      if r.toNat < count then s.setRegs (loadInto m base count s.v)
      else (s.setRegs (loadInto m base count s.v)).setReg r b := by
  rw [State.setReg_v, loadInto_set]
  split <;> rfl

/-! ## The two ways an instruction can treat a VF it does not read -/

/-- VF with another value in it makes no difference but in VF: the instruction either leaves VF alone, or overwrites it
with a value that does not depend on what it held. -/
def IgnoresVF (i : Instr) (b : Byte) (s : State) : Prop :=
  ∃ t, exec i s = .next t ∧
    ((t.reg 0xF = s.reg 0xF ∧ exec i (s.setReg 0xF b) = .next (t.setReg 0xF b)) ∨ exec i (s.setReg 0xF b) = .next t)

/-- A meaning that ends in one register written, with a value that does not depend on VF. -/
theorem ignoresVF_of_setReg {s₁ : State} {x : Nibble} {v : Byte} (hs₁ : s₁.reg 0xF = s.reg 0xF)
    (h : exec i s = .next (s₁.setReg x v)) (h' : exec i (s.setReg 0xF b) = .next ((s₁.setReg 0xF b).setReg x v)) :
    IgnoresVF i b s := by
  refine ⟨_, h, ?_⟩
  by_cases hx : x = 0xF
  · subst hx
    exact .inr (h'.trans (congrArg _ (s₁.setReg_setReg_same _ _ _)))
  · exact .inl ⟨(s₁.reg_setReg_other v (Ne.symm hx)).trans hs₁, h'.trans (congrArg _ (s₁.setReg_comm _ _ hx))⟩

/-- A meaning that ends in a skip, with a condition that does not depend on VF. -/
theorem ignoresVF_of_skipIf {s₁ : State} {c : Bool} (hs₁ : s₁.reg 0xF = s.reg 0xF)
    (h : exec i s = .next (s₁.skipIf c)) (h' : exec i (s.setReg 0xF b) = .next ((s₁.setReg 0xF b).skipIf c)) :
    IgnoresVF i b s :=
  ⟨_, h, .inl ⟨(s₁.reg_skipIf _ c).trans hs₁, h'.trans (congrArg _ (s₁.skipIf_setReg _ _ c))⟩⟩

/-! ## The meanings that overwrite VF, whatever it held -/

theorem State.resultThenFlag_setVF (s : State) (x : Nibble) (b result : Byte) (flag : Bool) :
    (s.setReg 0xF b).resultThenFlag x result flag = s.resultThenFlag x result flag := by
  simp only [State.resultThenFlag, State.setVF_eq]
  by_cases hx : x = 0xF
  · rw [hx, s.setReg_setReg_same]
  · rw [s.setReg_comm _ _ hx, State.setReg_setReg_same]

theorem State.shiftRight_setVF (s : State) {x : Nibble} (b : Byte) (hx : (s.setReg 0xF b).reg x = s.reg x) :
    (s.setReg 0xF b).shiftRight x = s.shiftRight x := by
  simp only [State.shiftRight, State.setVF_eq, hx, State.setReg_setReg_same]

theorem State.shiftLeft_setVF (s : State) {x : Nibble} (b : Byte) (hx : (s.setReg 0xF b).reg x = s.reg x) :
    (s.setReg 0xF b).shiftLeft x = s.shiftLeft x := by
  simp only [State.shiftLeft, State.setVF_eq, hx, State.setReg_setReg_same]

theorem State.drawAt_setVF (s : State) (b xs ys : Byte) (n : Nibble) :
    (s.setReg 0xF b).drawAt xs ys n = s.drawAt xs ys n := by
  simp only [State.drawAt, State.setVF_eq, State.setDisp_setReg, State.setReg_setReg_same, State.effAddr,
    State.setReg_mem, State.setReg_i, State.setReg_disp]

/-! ## Every instruction, by what it does with VF -/

/-- A register that an instruction reads is not VF when VF is not among those it reads. -/
theorem reg_setVF_of_read {r : Nibble} (b : Byte) (s : State) (hread : 0xF ∉ readsOf i) (hr : r ∈ readsOf i) :
    (s.setReg 0xF b).reg r = s.reg r :=
  s.reg_setReg_other b (ne_of_mem_of_not_mem hr hread)

theorem stopCause_setVF (b : Byte) (s : State) (hread : 0xF ∉ readsOf i) :
    stopCause i (s.setReg 0xF b) = stopCause i s := by
  cases i with
  | drw x y n =>
    simp only [stopCause, reg_setVF_of_read (r := x) b s hread (by simp [readsOf]),
      reg_setVF_of_read (r := y) b s hread (by simp [readsOf]), State.setReg_i]
  | _ => rfl

/-- An instruction that is not stopped and does not name VF as a register it reads. The flag writers, the shifts and the
draw overwrite VF; the others write VF as their destination or keep it (R39). -/
theorem exec_ignoresVF_of_go (b : Byte) (s : State) (hread : 0xF ∉ readsOf i) (hgo : stopCause i s = none) :
    IgnoresVF i b s := by
  have same {r : Nibble} (hr : r ∈ readsOf i) := reg_setVF_of_read b s hread hr
  have hgo' := (stopCause_setVF b s hread).trans hgo
  cases i with
  | cls | jp | ldI | nop => exact ⟨_, rfl, .inl ⟨rfl, rfl⟩⟩
  | ret =>
    have hsp := stopCause_ret_eq_none.mp hgo
    exact ⟨_, exec_ret_of_pos hsp, .inl ⟨rfl, exec_ret_of_pos (s := s.setReg 0xF b) hsp⟩⟩
  | call nnn =>
    have hsp := (stopCause_call_eq_none nnn).mp hgo
    exact ⟨_, exec_call_of_lt nnn hsp, .inl ⟨rfl, exec_call_of_lt (s := s.setReg 0xF b) nnn hsp⟩⟩
  | jpV0 nnn =>
    have h0 := same (List.Mem.head _)
    exact ⟨_, rfl, .inl ⟨rfl, by simp only [exec, execJpV0, State.regExtended, h0]; rfl⟩⟩
  | ldDTVx x | ldSTVx x | addI x | ldF x =>
    have hx := same (List.Mem.head _)
    refine ⟨_, rfl, .inl ⟨rfl, ?_⟩⟩
    simp only [exec, execLdDTVx, execLdSTVx, execAddI, execLdF, State.regExtended, hx]
    rfl
  | seImm x | sneImm x =>
    have hx := same (List.Mem.head _)
    exact ignoresVF_of_skipIf rfl rfl (by simp only [exec, execSeImm, execSneImm, hx])
  | skp x | sknp x =>
    have hx := same (List.Mem.head _)
    exact ignoresVF_of_skipIf (s₁ := s.tookKeyDown) rfl rfl (by simp only [exec, execSkp, execSknp, hx]; rfl)
  | seReg x y | sneReg x y =>
    have hx := same (List.Mem.head _)
    have hy := same (List.Mem.tail _ (List.Mem.head _))
    exact ignoresVF_of_skipIf rfl rfl (by simp only [exec, execSeReg, execSneReg, hx, hy])
  | ldImm | ldVxDT => exact ignoresVF_of_setReg rfl rfl rfl
  | rnd => exact ignoresVF_of_setReg (s₁ := s.tookRand) rfl rfl rfl
  | addImm x =>
    have hx := same (List.Mem.head _)
    exact ignoresVF_of_setReg rfl rfl (by simp only [exec, execAddImm, hx])
  | ldReg x y =>
    have hy := same (List.Mem.head _)
    exact ignoresVF_of_setReg rfl rfl (by simp only [exec, execLdReg, hy])
  | orReg x y | andReg x y | xorReg x y =>
    have hx := same (List.Mem.head _)
    have hy := same (List.Mem.tail _ (List.Mem.head _))
    exact ignoresVF_of_setReg rfl rfl (by simp only [exec, execOrReg, execAndReg, execXorReg, hx, hy])
  | addReg x y | subReg x y | subnReg x y =>
    have hx := same (List.Mem.head _)
    have hy := same (List.Mem.tail _ (List.Mem.head _))
    refine ⟨_, rfl, .inr ?_⟩
    simp only [exec, execAddReg, execSubReg, execSubnReg, State.resultThenFlag_setVF, hx, hy]
  | shr x y => exact ⟨_, rfl, .inr (congrArg Host.Outcome.next (s.shiftRight_setVF b (same (List.Mem.head _))))⟩
  | shl x y => exact ⟨_, rfl, .inr (congrArg Host.Outcome.next (s.shiftLeft_setVF b (same (List.Mem.head _))))⟩
  | drw x y n =>
    have hx := same (List.Mem.head _)
    have hy := same (List.Mem.tail _ (List.Mem.head _))
    rw [stopCause_drw_eq_none] at hgo hgo'
    refine ⟨_, exec_drw_of_inRange hgo, .inr ?_⟩
    rw [exec_drw_of_inRange hgo', hx, hy, State.drawAt_setVF]
  | ldVxK x =>
    obtain ⟨he, hn⟩ | ⟨code, he, hn⟩ := s.tookKeyEvent.keyEventInto_cases (Config.keyEvent s.keyEventIx) x
    · refine ⟨_, congrArg Host.Outcome.next hn, .inl ⟨rfl, ?_⟩⟩
      simp only [exec, execLdVxK, State.setReg_keyEventIx, he]
      rfl
    · refine ignoresVF_of_setReg (s₁ := s.tookKeyEvent) rfl (congrArg Host.Outcome.next hn) ?_
      simp only [exec, execLdVxK, State.setReg_keyEventIx, he]
      rfl
  | ldB x =>
    have hx := same (List.Mem.head _)
    rw [stopCause_ldB_eq_none] at hgo hgo'
    refine ⟨_, exec_ldB_of_inRange x hgo, .inl ⟨rfl, ?_⟩⟩
    rw [exec_ldB_of_inRange x hgo', hx]
    rfl
  | storeRegs x =>
    have hx : x.toNat < (0xF : Nibble).toNat := by simpa [readsOf, mem_regsThrough] using hread
    rw [stopCause_storeRegs_eq_none] at hgo hgo'
    refine ⟨_, exec_storeRegs_of_inRange hgo, .inl ⟨rfl, ?_⟩⟩
    rw [exec_storeRegs_of_inRange hgo', s.regsUpTo_setReg b hx]
    rfl
  | loadRegs x =>
    rw [stopCause_loadRegs_eq_none] at hgo hgo'
    refine ⟨_, exec_loadRegs_of_inRange hgo, ?_⟩
    have hload := s.setRegs_loadInto_setReg s.mem (s.effAddr 0) (x.toNat + 1) 0xF b
    rw [exec_loadRegs_of_inRange hgo', State.reg_loadInto]
    split at hload <;> rename_i hlt
    · exact .inr (congrArg _ hload)
    · exact .inl ⟨if_neg hlt, congrArg _ hload⟩

/-- A stopped instruction writes no register, and whether it stops does not depend on a VF it does not read. -/
theorem exec_ignoresVF (b : Byte) (s : State) (hread : 0xF ∉ readsOf i) : IgnoresVF i b s := by
  cases hgo : stopCause i s with
  | none => exact exec_ignoresVF_of_go b s hread hgo
  | some c =>
    have hgo' := (stopCause_setVF b s hread).trans hgo
    exact ⟨_, exec_of_stopCause hgo, .inl ⟨rfl, exec_of_stopCause hgo'⟩⟩

/-- Settles O49: an instruction that ignores VF gives the two runs states that differ in VF at most. -/
theorem vfIsNeverReadImplicitly : Obligations.VFIsNeverReadImplicitly := by
  intro i b s t u hread ht hu
  obtain ⟨t', ht', ⟨hkept, hu'⟩ | hu'⟩ := exec_ignoresVF b s hread
  all_goals
    obtain rfl := next_inj (ht'.symm.trans ht)
    obtain rfl := next_inj (hu'.symm.trans hu)
  · exact ⟨leaves_setReg b (by simp), .inr ⟨hkept, State.reg_setReg_same _ _ b⟩⟩
  · exact ⟨leaves_refl _ _, .inl rfl⟩

end Sys2Proof.Machine
end

section
/-! Reset (spec/10_state.md R38, spec/70_reset_and_hazards.md R270). -/

namespace Sys2Proof.Machine

theorem fontData_length : fontData.length = 80 := rfl

theorem unlistedByte_of_fontBase_add (a : Nat) : unlistedByte (fontBase + a) = fontData.getD a 0 := by
  simp [unlistedByte]

theorem byteAt_resetBlock (s : State) (a : Nat) : (resetBlock s).byteAt a = unlistedByte a := rfl

theorem reg_resetBlock (s : State) (r : Nibble) : (resetBlock s).reg r = 0 := by
  simp [State.reg, resetBlock, State.reset]

theorem font_resetBlock (s : State) {a : Nat} (ha : a < 80) :
    fontData[a]? = some ((resetBlock s).byteAt (fontBase + a)) := by
  have hlen : a < fontData.length := ha
  rw [byteAt_resetBlock, unlistedByte_of_fontBase_add, List.getD_eq_getElem _ _ hlen, List.getElem?_eq_getElem hlen]

theorem zero_above_font_resetBlock (s : State) {a : Nat} (ha : fontBase + 80 ≤ a) : (resetBlock s).byteAt a = 0 := by
  obtain ⟨k, rfl⟩ := Nat.exists_eq_add_of_le ha
  rw [byteAt_resetBlock, Nat.add_assoc, unlistedByte_of_fontBase_add]
  exact List.getD_eq_default _ _ (fontData_length.trans_le (Nat.le_add_right 80 k))

theorem readDisplay_resetBlock (s : State) {k : Nat} (hk : k < 256) : readDisplay k (resetBlock s) = .ok 0 := by
  simp [readDisplay, dispByte, resetBlock, State.reset, hk]

/-- Settles O54: reset lists no byte of memory, so each reads as unlisted, the font or 0. -/
theorem resetGivesEveryStateItsValue : Obligations.ResetGivesEveryStateItsValue := by
  intro s
  have hstack : ∀ k, k < 16 → (resetBlock s).stack.toList[k]? = some 0 := by
    intro k hk
    simp [resetBlock, State.reset, hk]
  exact ⟨resetBlock s, rfl, reg_resetBlock s, rfl, rfl, rfl, hstack, rfl, rfl, fun a => font_resetBlock s,
    fun a => zero_above_font_resetBlock s, fun k => readDisplay_resetBlock s, rfl, rfl, rfl, rfl, rfl⟩

end Sys2Proof.Machine
end

section
/-! Memory (spec/20_memory.md): an access past 0xFFF faults before it writes (R59, R60), and instructions are fetched from
the bytes that stores write (R57, R68). -/

namespace Sys2Proof.Machine

variable {f : Footprint} {s : State}

/-! ## Accesses past 0xFFF (R59, R60, R234) -/

theorem leaves_stop (st : Status) (c : Cause) (h : f.status = true) : Leaves f s (s.stop st c) := by simp [Leaves, h]

/-- What every memory fault is: status and cause, and nothing else (R234, R237). -/
theorem exec_of_memRange {i : Instr} (h : stopCause i s = some .faultMemRange) :
    ∃ t, exec i s = .next t ∧ t.status = .fault ∧ t.cause = .faultMemRange ∧ Leaves { status := true } s t :=
  ⟨_, exec_of_stopCause h, rfl, rfl, leaves_stop _ _ rfl⟩

/-- Settles O44: the address past 0xFFF is the stopping condition of each of the three. -/
theorem memoryInstructionsPastMemoryFault : Obligations.MemoryInstructionsPastMemoryFault := by
  intro x s
  exact ⟨fun hpast => exec_of_memRange (if_pos hpast), fun hpast => exec_of_memRange (if_pos hpast),
    fun hpast => exec_of_memRange (if_pos hpast)⟩

/-! ## Stored bytes as an instruction (R57, R68) -/

/-- After the block `V0` to `Vx` is stored from `I` on, the byte at `I + r` is register `r` (R203). -/
theorem State.byteAt_storeBytes_regsUpTo {x r : Nibble} (hr : r.toNat ≤ x.toNat) (hfit : s.i.toNat + x.toNat ≤ 0xFFF) :
    (s.storeBytes (s.effAddr 0) (s.regsUpTo x)).byteAt (s.effAddr r.toNat) = s.reg r := by
  have hsize : s.effAddr 0 + (s.regsUpTo x).length ≤ Config.memSize := by
    simp only [State.effAddr, State.regsUpTo_length, Config.memSize]
    omega
  have hin : s.effAddr 0 ≤ s.effAddr r.toNat ∧ s.effAddr r.toNat < s.effAddr 0 + (s.regsUpTo x).length := by
    simp only [State.effAddr, State.regsUpTo_length]
    omega
  have hoffset : s.effAddr r.toNat - s.effAddr 0 = r.toNat := Nat.add_sub_cancel_left ..
  rw [State.byteAt_storeBytes _ _ _ _ hsize, if_pos hin, hoffset, s.regsUpTo_getD x r hr]

/-- Settles O45: a fetch at `I` reads the bytes at `I` and `I + 1`, where the store put V0 and V1. -/
theorem storedBytesAreFetchedAsAnInstruction : Obligations.StoredBytesAreFetchedAsAnInstruction := by
  intro x s hx hfit
  refine ⟨_, exec_storeRegs_of_inRange ((s.outOfRange_eq_false _).mpr hfit), ?_⟩
  exact congrArg₂ bigEndian (State.byteAt_storeBytes_regsUpTo (r := 0) (Nat.zero_le _) hfit)
    (State.byteAt_storeBytes_regsUpTo (r := 1) hx hfit)

end Sys2Proof.Machine
end

section
/-! The rows of the opcode map and the decoder (spec/30_encoding.md R85 to R88, spec/47_unrecognised.md R220): a word
selects a row exactly when it decodes to the row's instruction. -/

namespace Sys2Proof.Laws

variable {i : Instr} {op : Word} {row : Word × Word}

/-! ## A word, by its format, from the fields its row fixes -/

/-- A field that the row's mask covers whole is the field of the row's match. -/
theorem extractLsb'_eq_of_selects (h : selects op row = true) (start len : Nat)
    (hmask : row.1.extractLsb' start len = BitVec.allOnes len) :
    op.extractLsb' start len = row.2.extractLsb' start len := by
  rw [← beq_iff_eq.mp h, BitVec.extractLsb'_and, hmask, BitVec.and_allOnes]

theorem eq_of_selects (h : selects op row = true) (hmask : row.1 = BitVec.allOnes 16) : op = row.2 := by
  rw [← beq_iff_eq.mp h, hmask, BitVec.and_allOnes]

theorem formatA_of_fieldT {t : Nibble} (hT : fieldT op = t) : formatA t (fieldNNN op) = op :=
  hT ▸ formatA_fields op

theorem formatXK_of_fieldT {t : Nibble} (hT : fieldT op = t) : formatXK t (fieldX op) (fieldKK op) = op :=
  hT ▸ formatXK_fields op

theorem formatXK_of_fieldKK {t : Nibble} {kk : Byte} (hT : fieldT op = t) (hK : fieldKK op = kk) :
    formatXK t (fieldX op) kk = op :=
  hK ▸ formatXK_of_fieldT hT

theorem formatXYN_of_fieldT {t : Nibble} (hT : fieldT op = t) :
    formatXYN t (fieldX op) (fieldY op) (fieldN op) = op :=
  hT ▸ formatXYN_fields op

theorem formatXYN_of_fieldN {t n : Nibble} (hT : fieldT op = t) (hN : fieldN op = n) :
    formatXYN t (fieldX op) (fieldY op) n = op :=
  hN ▸ formatXYN_of_fieldT hT

/-! ## Instructions and rows -/

theorem rowMatch : ∀ i : Instr, RowMatch.Statement i
  | .cls => RowMatch.cls
  | .ret => RowMatch.ret
  | .jp nnn => RowMatch.jp nnn
  | .call nnn => RowMatch.call nnn
  | .seImm x kk => RowMatch.seImm x kk
  | .sneImm x kk => RowMatch.sneImm x kk
  | .seReg x y => RowMatch.seReg x y
  | .ldImm x kk => RowMatch.ldImm x kk
  | .addImm x kk => RowMatch.addImm x kk
  | .ldReg x y => RowMatch.ldReg x y
  | .orReg x y => RowMatch.orReg x y
  | .andReg x y => RowMatch.andReg x y
  | .xorReg x y => RowMatch.xorReg x y
  | .addReg x y => RowMatch.addReg x y
  | .subReg x y => RowMatch.subReg x y
  | .shr x y => RowMatch.shr x y
  | .subnReg x y => RowMatch.subnReg x y
  | .shl x y => RowMatch.shl x y
  | .sneReg x y => RowMatch.sneReg x y
  | .ldI nnn => RowMatch.ldI nnn
  | .jpV0 nnn => RowMatch.jpV0 nnn
  | .rnd x kk => RowMatch.rnd x kk
  | .drw x y n => RowMatch.drw x y n
  | .skp x => RowMatch.skp x
  | .sknp x => RowMatch.sknp x
  | .ldVxDT x => RowMatch.ldVxDT x
  | .ldVxK x => RowMatch.ldVxK x
  | .ldDTVx x => RowMatch.ldDTVx x
  | .ldSTVx x => RowMatch.ldSTVx x
  | .addI x => RowMatch.addI x
  | .ldF x => RowMatch.ldF x
  | .ldB x => RowMatch.ldB x
  | .storeRegs x => RowMatch.storeRegs x
  | .loadRegs x => RowMatch.loadRegs x
  | .nop word => RowMatch.nop word

theorem selects_encode (h : rowOf i = some row) : row ∈ opcodeRows ∧ selects (encode i) row = true := by
  have hi := rowMatch i
  rwa [RowMatch.Statement, h] at hi

/-- The no-ops are the terms without a row. -/
theorem nop_or_rowOf (i : Instr) : (∃ w, i = .nop w) ∨ ∃ row, rowOf i = some row := by
  cases i with
  | nop w => exact .inl ⟨w, rfl⟩
  | _ => exact .inr ⟨_, rfl⟩

/-- A word that selects a row is the word of an instruction of that row, its operands the word's fields. -/
theorem exists_encode_of_selects (hrow : row ∈ opcodeRows) (h : selects op row = true) :
    ∃ i, rowOf i = some row ∧ encode i = op := by
  have hWord := eq_of_selects h
  have hT : _ → fieldT op = fieldT row.2 := extractLsb'_eq_of_selects h 12 4
  have hN : _ → fieldN op = fieldN row.2 := extractLsb'_eq_of_selects h 0 4
  have hK : _ → fieldKK op = fieldKK row.2 := extractLsb'_eq_of_selects h 0 8
  simp only [opcodeRows, List.cons_append, List.nil_append, List.mem_cons, List.not_mem_nil, or_false] at hrow
  rcases hrow with rfl | rfl | hrow
  · exact ⟨.cls, rfl, (hWord rfl).symm⟩
  · exact ⟨.ret, rfl, (hWord rfl).symm⟩
  rcases hrow with rfl | rfl | rfl | rfl | rfl | rfl | rfl | hrow
  · exact ⟨.jp _, rfl, formatA_of_fieldT (hT rfl)⟩
  · exact ⟨.call _, rfl, formatA_of_fieldT (hT rfl)⟩
  · exact ⟨.seImm _ _, rfl, formatXK_of_fieldT (hT rfl)⟩
  · exact ⟨.sneImm _ _, rfl, formatXK_of_fieldT (hT rfl)⟩
  · exact ⟨.seReg _ _, rfl, formatXYN_of_fieldN (hT rfl) (hN rfl)⟩
  · exact ⟨.ldImm _ _, rfl, formatXK_of_fieldT (hT rfl)⟩
  · exact ⟨.addImm _ _, rfl, formatXK_of_fieldT (hT rfl)⟩
  rcases hrow with rfl | rfl | rfl | rfl | rfl | rfl | rfl | rfl | rfl | rfl | hrow
  · exact ⟨.ldReg _ _, rfl, formatXYN_of_fieldN (hT rfl) (hN rfl)⟩
  · exact ⟨.orReg _ _, rfl, formatXYN_of_fieldN (hT rfl) (hN rfl)⟩
  · exact ⟨.andReg _ _, rfl, formatXYN_of_fieldN (hT rfl) (hN rfl)⟩
  · exact ⟨.xorReg _ _, rfl, formatXYN_of_fieldN (hT rfl) (hN rfl)⟩
  · exact ⟨.addReg _ _, rfl, formatXYN_of_fieldN (hT rfl) (hN rfl)⟩
  · exact ⟨.subReg _ _, rfl, formatXYN_of_fieldN (hT rfl) (hN rfl)⟩
  · exact ⟨.shr _ _, rfl, formatXYN_of_fieldN (hT rfl) (hN rfl)⟩
  · exact ⟨.subnReg _ _, rfl, formatXYN_of_fieldN (hT rfl) (hN rfl)⟩
  · exact ⟨.shl _ _, rfl, formatXYN_of_fieldN (hT rfl) (hN rfl)⟩
  · exact ⟨.sneReg _ _, rfl, formatXYN_of_fieldN (hT rfl) (hN rfl)⟩
  rcases hrow with rfl | rfl | rfl | rfl | rfl | rfl | hrow
  · exact ⟨.ldI _, rfl, formatA_of_fieldT (hT rfl)⟩
  · exact ⟨.jpV0 _, rfl, formatA_of_fieldT (hT rfl)⟩
  · exact ⟨.rnd _ _, rfl, formatXK_of_fieldT (hT rfl)⟩
  · exact ⟨.drw _ _ _, rfl, formatXYN_of_fieldT (hT rfl)⟩
  · exact ⟨.skp _, rfl, formatXK_of_fieldKK (hT rfl) (hK rfl)⟩
  · exact ⟨.sknp _, rfl, formatXK_of_fieldKK (hT rfl) (hK rfl)⟩
  rcases hrow with rfl | rfl | rfl | rfl | rfl | rfl | rfl | rfl | rfl
  · exact ⟨.ldVxDT _, rfl, formatXK_of_fieldKK (hT rfl) (hK rfl)⟩
  · exact ⟨.ldVxK _, rfl, formatXK_of_fieldKK (hT rfl) (hK rfl)⟩
  · exact ⟨.ldDTVx _, rfl, formatXK_of_fieldKK (hT rfl) (hK rfl)⟩
  · exact ⟨.ldSTVx _, rfl, formatXK_of_fieldKK (hT rfl) (hK rfl)⟩
  · exact ⟨.addI _, rfl, formatXK_of_fieldKK (hT rfl) (hK rfl)⟩
  · exact ⟨.ldF _, rfl, formatXK_of_fieldKK (hT rfl) (hK rfl)⟩
  · exact ⟨.ldB _, rfl, formatXK_of_fieldKK (hT rfl) (hK rfl)⟩
  · exact ⟨.storeRegs _, rfl, formatXK_of_fieldKK (hT rfl) (hK rfl)⟩
  · exact ⟨.loadRegs _, rfl, formatXK_of_fieldKK (hT rfl) (hK rfl)⟩

/-! ## The decoder on an instruction's word -/

/-- Decoding by the fields: the top nibble first, and in families 5, 8, 9, E and F the minor opcode. -/
theorem decodeWord_encode_of_rowOf (h : rowOf i = some row) : decodeWord (encode i) = i := by
  cases i with
  | cls | ret => rfl
  | jp | call | ldI | jpV0 => simp [encode, decodeWord]
  | seImm | sneImm | ldImm | addImm | rnd | drw => simp [encode, decodeWord]
  | seReg | sneReg => simp [encode, decodeWord]
  | ldReg | orReg | andReg | xorReg | addReg | subReg | shr | subnReg | shl => simp [encode, decodeWord, decode8]
  | skp | sknp => simp [encode, decodeWord, decodeE]
  | ldVxDT | ldVxK | ldDTVx | ldSTVx | addI | ldF | ldB | storeRegs | loadRegs => simp [encode, decodeWord, decodeF]
  | nop => cases h

/-! ## The decoder on every word -/

theorem encode_decode0 (op : Word) : encode (decode0 op) = op := by
  unfold decode0
  split
  · exact Eq.symm ‹_›
  · split
    · exact Eq.symm ‹_›
    · rfl

theorem encode_decode8 (hT : fieldT op = 0x8) : encode (decode8 op) = op := by
  unfold decode8
  split
  case h_10 => rfl
  all_goals exact formatXYN_of_fieldN hT ‹_›

theorem encode_decodeE (hT : fieldT op = 0xE) : encode (decodeE op) = op := by
  unfold decodeE
  split
  case h_3 => rfl
  all_goals exact formatXK_of_fieldKK hT ‹_›

theorem encode_decodeF (hT : fieldT op = 0xF) : encode (decodeF op) = op := by
  unfold decodeF
  split
  case h_10 => rfl
  all_goals exact formatXK_of_fieldKK hT ‹_›

/-- Encode undoes decode: in each family the instruction's fields are the word's, so its format gives the word back. -/
theorem encode_decodeWord (op : Word) : encode (decodeWord op) = op := by
  unfold decodeWord
  split <;> rename_i hT
  · exact encode_decode0 op
  · exact formatA_of_fieldT hT
  · exact formatA_of_fieldT hT
  · exact formatXK_of_fieldT hT
  · exact formatXK_of_fieldT hT
  · split
    · exact formatXYN_of_fieldN hT ‹_›
    · rfl
  · exact formatXK_of_fieldT hT
  · exact formatXK_of_fieldT hT
  · exact encode_decode8 hT
  · split
    · exact formatXYN_of_fieldN hT ‹_›
    · rfl
  · exact formatA_of_fieldT hT
  · exact formatA_of_fieldT hT
  · exact formatXK_of_fieldT hT
  · exact formatXYN_of_fieldT hT
  · exact encode_decodeE hT
  · have hF : fieldT op = 0xF := by
      simp only [imp_false] at *
      bv_omega
    exact encode_decodeF hF

/-- The rows a word selects are the one row of the instruction it decodes to. -/
theorem rowOf_decodeWord (op : Word) (row : Word × Word) :
    rowOf (decodeWord op) = some row ↔ row ∈ opcodeRows ∧ selects op row = true := by
  constructor
  · intro h
    simpa [encode_decodeWord] using selects_encode h
  · rintro ⟨hrow, hsel⟩
    obtain ⟨i, hi, rfl⟩ := exists_encode_of_selects hrow hsel
    rwa [decodeWord_encode_of_rowOf hi]

theorem recognised_iff_rowOf (op : Word) : recognised op = true ↔ ∃ row, rowOf (decodeWord op) = some row := by
  simp only [recognised, List.any_eq_true, rowOf_decodeWord]

/-- The decoder's no-ops are the words that no row selects (R220). -/
theorem decodeWord_eq_nop_iff (op : Word) : decodeWord op = .nop op ↔ recognised op = false := by
  rw [← Bool.not_eq_true, recognised_iff_rowOf]
  constructor
  · rintro h ⟨row, hrow⟩
    rw [h] at hrow
    cases hrow
  · intro h
    obtain ⟨w, hw⟩ | hrow := nop_or_rowOf (decodeWord op)
    · have hword := encode_decodeWord op
      rw [hw] at hword ⊢
      exact congrArg Instr.nop hword
    · exact absurd hrow h

theorem wellFormed_of_rowOf (h : rowOf i = some row) : wellFormed i = true := by
  cases i with
  | nop => cases h
  | _ => rfl

theorem wellFormed_decodeWord (op : Word) : wellFormed (decodeWord op) = true := by
  cases h : recognised op with
  | true =>
    obtain ⟨row, hrow⟩ := (recognised_iff_rowOf op).mp h
    exact wellFormed_of_rowOf hrow
  | false => simp [(decodeWord_eq_nop_iff op).mpr h, wellFormed, h]

theorem decodeWord_encode (h : wellFormed i = true) : decodeWord (encode i) = i := by
  obtain ⟨w, rfl⟩ | ⟨row, hrow⟩ := nop_or_rowOf i
  · exact (decodeWord_eq_nop_iff w).mpr (by simpa [wellFormed] using h)
  · exact decodeWord_encode_of_rowOf hrow

/-! ## The statements about encoding and decoding -/

/-- Settles O1: the two bytes are the encoded word's, and the decoder takes that word back to the instruction. -/
theorem encodeThenDecodeGivesTheInstruction : Obligations.EncodeThenDecodeGivesTheInstruction := by
  intro i rest h
  simp [encodeBytes, decode, decodeWord_encode h]

/-- Settles O2. -/
theorem everyWordIsTheWordOfItsInstruction : Obligations.EveryWordIsTheWordOfItsInstruction :=
  fun op => ⟨encode_decodeWord op, wellFormed_decodeWord op⟩

/-- Settles O5: both rows are the row of the one instruction the word decodes to. -/
theorem noWordSelectsTwoRows : Obligations.NoWordSelectsTwoRows := by
  intro op a ha b hb hsa hsb
  have hrow := (rowOf_decodeWord op a).mpr ⟨ha, hsa⟩
  rw [(rowOf_decodeWord op b).mpr ⟨hb, hsb⟩] at hrow
  exact (Option.some.inj hrow).symm

/-- Settles O3: ten closed facts. -/
theorem decodedWordsWrittenOut : Obligations.DecodedWordsWrittenOut := by
  unfold Obligations.DecodedWordsWrittenOut
  decide

end Sys2Proof.Laws
end

section
/-! The document's Decoder and its listing beside the engine (spec/30_encoding.md R95, R96). -/

namespace Sys2Proof.Machine

open Sys2Proof.Laws

variable {i : Instr} {op : Word} {row : Word × Word}

theorem listing_isSome_of_rowOf (h : rowOf i = some row) : (listing i).isSome = true := by
  cases i with
  | nop => cases h
  | _ => rfl

theorem decodeStrict_of_rowOf (h : rowOf (decodeWord op) = some row) : decodeStrict op = .ok (decodeWord op) := by
  unfold decodeStrict
  split
  · rename_i hnop
    rw [hnop] at h
    cases h
  · rfl

theorem decodeStrict_of_nop (h : decodeWord op = .nop op) : decodeStrict op = .error (.unknownInstruction op) := by
  rw [decodeStrict, h]

/-- Settles O6: a recognised word decodes to an instruction with a row, every other word to its no-op. -/
theorem strictDecoderFailsWhereTheEngineDoesNothing : Obligations.StrictDecoderFailsWhereTheEngineDoesNothing := by
  intro op
  constructor
  · intro h
    obtain ⟨row, hrow⟩ := (recognised_iff_rowOf op).mp h
    exact ⟨decodeStrict_of_rowOf hrow, listing_isSome_of_rowOf hrow⟩
  · intro h
    have hnop := (decodeWord_eq_nop_iff op).mpr h
    refine ⟨decodeStrict_of_nop hnop, ?_⟩
    rw [hnop]
    exact ⟨rfl, fun s => ⟨s, rfl, leaves_refl _ s⟩⟩

end Sys2Proof.Machine
end

section
/-! The word at PC is the instruction the step runs (spec/60_exceptions.md R230). -/

namespace Sys2Proof.Machine

variable {s : State}

theorem State.pcPastTop_eq_false : s.pcPastTop = false ↔ s.pc.toNat ≤ 0xFFE := by
  simp [State.pcPastTop]

/-- The step of a running core whose PC is not past the top (R230, S2 to S5). -/
theorem step_of_running (hrun : s.status = .running) (hpc : s.pc.toNat ≤ 0xFFE) :
    step s = exec (decodeWord s.fetchWord) (s.setPc (s.pc + 2)) := by
  simp [step, stepWith, hrun, State.pcPastTop_eq_false.mpr hpc]

/-- A word is its own 16-bit number. -/
theorem tableWord_toNat (op : Word) : tableWord 16 op.toNat = op := by
  simp [tableWord, Nat.mod_eq_of_lt op.isLt]

theorem State.withFetchWord_toNat (s : State) (op : Word) : s.withFetchWord 16 op.toNat = s.placeWord op := by
  rw [State.withFetchWord, tableWord_toNat]

/-- Settles O11: placing a word leaves status and PC alone, and the fetch reads the word back. -/
theorem placedWordIsTheOneRun : Obligations.PlacedWordIsTheOneRun := by
  intro s op hrun hpc
  rw [State.withFetchWord_toNat, step_of_running (s := s.placeWord op) hrun hpc,
    s.fetchWord_placeWord op (State.pcPastTop_eq_false.mpr hpc)]
  rfl

end Sys2Proof.Machine
end

section
/-! Control flow (spec/40_control_flow.md): jumps, skips, calls and returns. -/

namespace Sys2Proof.Machine

variable {f : Footprint} {i : Instr} {s t : State}

/-! ## Jumps (R111, R113) -/

/-- The target of `JP V0` does not wrap: its largest value is 0x10FE (R27, D34). -/
theorem State.jpV0Target_toNat (s : State) (nnn : Addr) :
    (s.regExtended 0 + addrOperand nnn).toNat = (s.reg 0).toNat + nnn.toNat := by
  have hreg := (s.reg 0).isLt
  have hnnn := nnn.isLt
  rw [BitVec.toNat_add, State.regExtended_toNat, addrOperand_toNat]
  omega

/-- Settles O15: each jump is one write of PC. -/
theorem jumpsGoToTheirTargets : Obligations.JumpsGoToTheirTargets := fun nnn s =>
  ⟨⟨_, rfl, addrOperand_toNat nnn, leaves_setPc _ rfl⟩, ⟨_, rfl, s.jpV0Target_toNat nnn, leaves_setPc _ rfl⟩⟩

/-! ## Skips (R114 to R117) -/

theorem State.skipIf_beq_pc (s : State) (a b : Byte) :
    (s.skipIf (a == b)).pc = if a = b then s.pc + 2 else s.pc := by
  simp [State.skipIf_eq]

theorem State.skipIf_bne_pc (s : State) (a b : Byte) :
    (s.skipIf (a != b)).pc = if a = b then s.pc else s.pc + 2 := by
  simp [State.skipIf_eq]

/-- Settles O18: two skips on equality, two on its negation. -/
theorem skipsMovePcWhenTheirConditionHolds : Obligations.SkipsMovePcWhenTheirConditionHolds := fun _ _ _ s =>
  ⟨⟨_, rfl, s.skipIf_beq_pc _ _, leaves_skipIf _ rfl⟩, ⟨_, rfl, s.skipIf_bne_pc _ _, leaves_skipIf _ rfl⟩,
    ⟨_, rfl, s.skipIf_beq_pc _ _, leaves_skipIf _ rfl⟩, ⟨_, rfl, s.skipIf_bne_pc _ _, leaves_skipIf _ rfl⟩⟩

/-! ## The stack's entries by number (R16) -/

theorem State.top_eq_entry (s : State) (h : 0 < s.sp.val) : s.stack.toList[s.sp.val - 1]? = some (s.top h) := by
  have : s.sp.val - 1 < Config.stackDepth := by have := s.sp.isLt; omega
  simp [State.top, this]

theorem State.push_entry_same (s : State) (w : Word) (h : s.sp.val < Config.stackDepth) :
    (s.push w h).stack.toList[s.sp.val]? = some w := by
  simp [h]

theorem State.push_entry_other (s : State) (w : Word) (h : s.sp.val < Config.stackDepth) {k : Nat} (hk : k ≠ s.sp.val) :
    (s.push w h).stack.toList[k]? = s.stack.toList[k]? := by
  simp [Vector.getElem?_set_ne h hk.symm]

/-! ## CALL and RET (R110, R112) -/

/-- Settles O13: the pop moves SP only, and PC takes the entry just below the old SP. -/
theorem retPopsTheTopIntoPc : Obligations.RetPopsTheTopIntoPc := fun s h =>
  ⟨_, exec_ret_of_pos h, s.top_eq_entry h, Nat.sub_add_cancel h, rfl, (leaves_drop rfl).trans (leaves_setPc _ rfl)⟩

/-- Settles O16: the push sets the entry at SP, and PC takes the target. -/
theorem callPushesPcAndJumps : Obligations.CallPushesPcAndJumps := fun nnn s h =>
  ⟨_, exec_call_of_lt nnn h, addrOperand_toNat nnn, rfl, s.push_entry_same s.pc h,
    fun _ _ hk => s.push_entry_other s.pc h hk, (leaves_push _ h rfl).trans (leaves_setPc _ rfl)⟩

/-- Settles O17: the full stack is CALL's stopping condition. -/
theorem callOnFullStackFaults : Obligations.CallOnFullStackFaults := fun _ _ h =>
  ⟨_, exec_of_stopCause (if_pos h), rfl, rfl, leaves_stop _ _ rfl⟩

/-! ## Nested calls (R118) -/

theorem execAll_cons_of_next (is : List Instr) (h : exec i s = .next t) : execAll (i :: is) s = execAll is t := by
  rw [execAll, h]

/-- What is executed after a list goes on from the state the list answers. -/
theorem execAll_append_of_next {is : List Instr} (js : List Instr) (h : execAll is s = .next t) :
    execAll (is ++ js) s = execAll js t := by
  induction is generalizing s with
  | nil => exact congrArg (execAll js) (next_inj h)
  | cons i is ih =>
    cases hi : exec i s with
    | next u =>
      rw [execAll_cons_of_next is hi] at h
      rw [List.cons_append, execAll_cons_of_next _ hi]
      exact ih h
    | fault r => simp [execAll, hi] at h
    | refused r => simp [execAll, hi] at h

/-- To keep a frame is to keep it but for PC, and PC too where the frame does. -/
theorem leaves_iff_pc : Leaves f s t ↔ Leaves { f with pc := true } s t ∧ (f.pc = false → t.pc = s.pc) := by
  constructor
  · rintro ⟨regs, index, pc, others⟩
    exact ⟨⟨regs, index, nofun, others⟩, pc⟩
  · rintro ⟨⟨regs, index, -, others⟩, pc⟩
    exact ⟨regs, index, pc, others⟩

/-- The first call and the last return enclose the calls and returns between them. -/
theorem nestedCalls_cons (nnn : Addr) (targets : List Addr) :
    (nnn :: targets).map Instr.call ++ List.replicate (nnn :: targets).length Instr.ret =
      .call nnn :: (targets.map Instr.call ++ List.replicate targets.length Instr.ret ++ [.ret]) := by
  simp [List.replicate_succ']

/-- Settles O19, by induction on the targets: the calls and returns inside the first call leave the entry it pushed in
use and as it was, so the last return pops it. -/
theorem nestedCallsAndReturnsComeBack : Obligations.NestedCallsAndReturnsComeBack := by
  intro targets
  induction targets with
  | nil => exact fun s _ => ⟨s, rfl, rfl, rfl, fun _ _ => rfl, leaves_refl _ s⟩
  | cons nnn targets ih =>
    intro s hroom
    rw [List.length_cons] at hroom
    obtain ⟨called, hcall, -, hcalledSp, hpushed, hothers, hcallFrame⟩ := callPushesPcAndJumps nnn s (by omega)
    obtain ⟨back, hback, -, hbackSp, hinUse, hbackFrame⟩ := ih called (by omega)
    obtain ⟨t, hret, hpopped, htSp, htStack, hretFrame⟩ := retPopsTheTopIntoPc back (by omega)
    have hpc : t.pc = s.pc := by
      have htop : back.sp.val - 1 = s.sp.val := by omega
      rw [htop, hinUse _ (by omega), hpushed] at hpopped
      exact (Option.some.inj hpopped).symm
    have hentries : ∀ k, k < s.sp.val → t.stack.toList[k]? = s.stack.toList[k]? := by
      intro k hk
      rw [htStack, hinUse k (by omega), hothers k (by omega) (by omega)]
    have hframe : Leaves { pc := true, stack := true } s t :=
      (hcallFrame.trans (leaves_iff_pc.mp hbackFrame).1).trans hretFrame
    refine ⟨t, ?_, hpc, Fin.ext (by omega), hentries, leaves_iff_pc.mpr ⟨hframe, fun _ => hpc⟩⟩
    rw [nestedCalls_cons, execAll_cons_of_next _ hcall, execAll_append_of_next _ hback, execAll_cons_of_next _ hret,
      execAll]

end Sys2Proof.Machine
end

section
/-! Immediate loads and add (spec/41_immediate.md). -/

namespace Sys2Proof.Machine

/-- Settles O20: each instruction is one write of Vx, the sum wrapping with the byte (R130, R131). -/
theorem immediateLoadAndAdd : Obligations.ImmediateLoadAndAdd := by
  intro x kk s
  constructor
  · exact ⟨_, rfl, s.reg_setReg_same x kk, leaves_setReg kk (List.mem_singleton_self x)⟩
  · have hsum : ((s.setReg x (s.reg x + kk)).reg x).toNat = ((s.reg x).toNat + kk.toNat) % 256 := by
      rw [State.reg_setReg_same, BitVec.toNat_add]
    exact ⟨_, rfl, hsum, leaves_setReg _ (List.mem_singleton_self x)⟩

/-- Settles O21: the one write is of the index, with the operand zero-extended (R132). -/
theorem loadIndexZeroExtends : Obligations.LoadIndexZeroExtends := fun nnn _ =>
  ⟨_, rfl, addrOperand_toNat nnn, leaves_setI _ rfl⟩

end Sys2Proof.Machine
end

section
/-! The register ALU (spec/42_alu.md). -/

namespace Sys2Proof.Machine

variable (s : State) {t : State} {x : Nibble}

/-! ## LD, OR, AND, XOR (R142 to R145) -/

/-- Settles O22: each instruction is one write of Vx, and the bitwise operations work bit by bit. -/
theorem logicalInstructionsWriteOnlyVx : Obligations.LogicalInstructionsWriteOnlyVx := by
  intro x y s
  have frame (b : Byte) : Leaves { regs := [x] } s (s.setReg x b) := leaves_setReg b (List.mem_singleton_self x)
  refine ⟨⟨_, rfl, s.reg_setReg_same x _, frame _⟩, ⟨_, rfl, fun k => ?_, frame _⟩, ⟨_, rfl, fun k => ?_, frame _⟩,
    ⟨_, rfl, fun k => ?_, frame _⟩⟩
  · rw [State.reg_setReg_same, BitVec.getLsbD_or]
  · rw [State.reg_setReg_same, BitVec.getLsbD_and]
  · rw [State.reg_setReg_same, BitVec.getLsbD_xor]

/-! ## The result, then the flag (R140) -/

theorem State.reg_resultThenFlag_flag (result : Byte) (flag : Bool) :
    (s.resultThenFlag x result flag).reg 0xF = flagByte flag := by
  rw [State.reg_resultThenFlag, if_pos rfl]

theorem State.reg_resultThenFlag_result (result : Byte) (flag : Bool) (hx : x ≠ 0xF) :
    (s.resultThenFlag x result flag).reg x = result := by
  rw [State.reg_resultThenFlag, if_neg hx, if_pos rfl]

theorem flagByte_decide (p : Prop) [Decidable p] : flagByte (decide p) = if p then 1 else 0 := by
  simp [flagByte]

/-! ## ADD (R146) -/

/-- Settles O23: the carry is written last, so VF holds it for every x, and the sum of bytes wraps at 256. -/
theorem addSetsTheCarryFlag : Obligations.AddSetsTheCarryFlag := by
  intro x y s
  refine ⟨_, rfl, ?_, fun hx => ?_, leaves_resultThenFlag _ _ (by simp) (by simp)⟩
  · rw [State.reg_resultThenFlag_flag, carryOf, flagByte_decide]
  · rw [s.reg_resultThenFlag_result _ _ hx, BitVec.toNat_add]

/-! ## SUB and SUBN (R147, R149) -/

/-- What SUB and SUBN share: the difference of two bytes to Vx, then the no-borrow flag to VF. -/
theorem State.of_difference_thenNoBorrow {a b : Byte} (ht : t = s.resultThenFlag x (a - b) (noBorrow a b)) :
    t.reg 0xF = (if a.toNat ≥ b.toNat then 1 else 0) ∧
    (x ≠ 0xF → (t.reg x).toNat = (a.toNat + 256 - b.toNat) % 256) ∧ Leaves { regs := [x, 0xF] } s t := by
  subst ht
  refine ⟨?_, fun hx => ?_, leaves_resultThenFlag _ _ (by simp) (by simp)⟩
  · rw [State.reg_resultThenFlag_flag, noBorrow, flagByte_decide]
  · rw [s.reg_resultThenFlag_result _ _ hx]
    bv_omega

/-- Settles O24: one subtraction, with the two registers in either order. -/
theorem subtractionsSetTheNoBorrowFlag : Obligations.SubtractionsSetTheNoBorrowFlag := fun _ _ s =>
  ⟨⟨_, rfl, s.of_difference_thenNoBorrow rfl⟩, ⟨_, rfl, s.of_difference_thenNoBorrow rfl⟩⟩

/-! ## SHR and SHL (R148, R150) -/

/-- What SHL leaves of a flag in VF: 0 or 2 (R150). -/
theorem flagByte_shiftLeft_toNat (flag : Bool) : (flagByte flag <<< 1).toNat = 2 * (flagByte flag).toNat := by
  cases flag <;> rfl

/-- Settles O25: where Vx is not VF the two writes do not meet; where it is, the shift acts on the flag just written. -/
theorem shiftsMoveTheirBitIntoVFFirst : Obligations.ShiftsMoveTheirBitIntoVFFirst := by
  intro x y s
  constructor
  · refine ⟨_, rfl, fun hx => ⟨?_, ?_⟩, ?_, leaves_shiftRight (by simp) (by simp)⟩
    · rw [State.reg_shiftRight, if_pos rfl, if_neg hx, BitVec.toNat_ushiftRight, Nat.shiftRight_one]
    · rw [State.reg_shiftRight, if_neg hx.symm, if_pos rfl, flagByte_shiftedOutRight]
    · rintro rfl
      rw [State.reg_shiftRight, if_pos rfl, if_pos rfl]
  · refine ⟨_, rfl, fun hx => ⟨?_, ?_⟩, ?_, leaves_shiftLeft (by simp) (by simp)⟩
    · rw [State.reg_shiftLeft, if_pos rfl, if_neg hx, BitVec.toNat_shiftLeft, Nat.shiftLeft_eq, pow_one]
    · rw [State.reg_shiftLeft, if_neg hx.symm, if_pos rfl, flagByte_shiftedOutLeft]
    · rintro rfl
      rw [State.reg_shiftLeft, if_pos rfl, if_pos rfl, flagByte_shiftLeft_toNat, flagByte_shiftedOutLeft]

end Sys2Proof.Machine
end

section
/-! The random source (spec/43_random.md R160, R161). -/

namespace Sys2Proof.Machine

variable (s : State)

@[simp] theorem State.reg_rndWith_same (r : Byte) (x : Nibble) (kk : Byte) : (s.rndWith r x kk).reg x = r &&& kk :=
  s.reg_setReg_same x _

@[simp] theorem State.rndWith_randIx (r : Byte) (x : Nibble) (kk : Byte) : (s.rndWith r x kk).randIx = s.randIx := rfl

/-- Settles O26: one answer is taken, then the masked answer is the one write of Vx. -/
theorem rndMasksTheNextAnswer : Obligations.RndMasksTheNextAnswer := by
  intro x kk s
  refine ⟨s.tookRand.rndWith (Config.randByte s.randIx) x kk, rfl, fun k => ?_, ?_, ?_⟩
  · rw [State.reg_rndWith_same, BitVec.getLsbD_and]
  · rw [State.rndWith_randIx, State.tookRand_randIx]
  · exact (leaves_tookRand rfl).trans (leaves_setReg _ (List.mem_singleton_self x))

end Sys2Proof.Machine
end

section
/-! The display (spec/44_display.md): CLS, the draw pixel by pixel, and the environment's read accessors. -/

namespace Sys2Proof.Machine

variable {s : State} {xs ys : Byte} {x y n : Nibble}

/-! ## CLS (R165) -/

theorem dispByte_replicate_zero (k : Nat) : dispByte (Vector.replicate Config.dispBytes 0) k = 0 := by
  rw [dispByte, Vector.getElem?_replicate]
  split <;> rfl

theorem pixelOf_replicate_zero (px py : Nat) : pixelOf (Vector.replicate Config.dispBytes 0) px py = false := by
  rw [pixelOf, dispByte_replicate_zero]
  exact BitVec.getLsbD_zero

/-! ## The read accessors inside their domain (R8, R172, R262) -/

theorem readDisplay_of_lt {k : Nat} (hk : k < 256) : readDisplay k s = .ok (dispByte s.disp k) := if_pos hk

theorem readPixel_of_lt {px py : Nat} (hpx : px < 64) (hpy : py < 32) : readPixel px py s = .ok (pixelOf s.disp px py) :=
  if_pos ⟨hpx, hpy⟩

/-- Settles O27: the one write is of the display, and every byte of the new one is 0. -/
theorem clsTurnsEveryPixelOff : Obligations.ClsTurnsEveryPixelOff := by
  intro s
  refine ⟨_, rfl, fun k hk => ?_, fun px py hpx hpy => ?_, leaves_setDisp _ rfl⟩
  · rw [readDisplay_of_lt hk, State.setDisp_disp, dispByte_replicate_zero]
  · rw [readPixel_of_lt hpx hpy, State.setDisp_disp, pixelOf_replicate_zero]

/-- The mask of R172's formula, the top bit shifted right, selects one bit of the byte. -/
theorem and_topBit_ne_zero (b : Byte) {j : Nat} (hj : j < 8) : (b &&& (0x80#8 >>> j) != 0) = b.getLsbD (7 - j) := by
  have hmask : ∀ j, j < 8 → 0x80#8 >>> j = BitVec.twoPow 8 (7 - j) ∧ BitVec.twoPow 8 (7 - j) ≠ 0 := by decide
  obtain ⟨hpow, hne⟩ := hmask j hj
  rw [hpow, BitVec.and_twoPow]
  cases b.getLsbD (7 - j) with
  | true => exact bne_iff_ne.mpr hne
  | false => rfl

/-- Settles O57: each accessor tests its domain first, and the formula's mask selects the pixel's bit (R33). -/
theorem accessorsAnswerInsideTheirDomainOnly : Obligations.AccessorsAnswerInsideTheirDomainOnly := by
  intro px py s
  refine ⟨fun hpx hpy => ?_, fun hout => if_neg ?_, fun hpc => if_neg ?_, fun hpc => if_pos (decide_eq_true hpc)⟩
  · rw [readPixel_of_lt hpx hpy, pixelOf, and_topBit_ne_zero _ (Nat.mod_lt px (by decide))]
  · simp only [Config.dispW, Config.dispH]
    omega
  · simpa [State.pcPastTop] using hpc

/-! ## What a draw leaves, pixel by pixel (R167 to R170) -/

/-- The display a draw leaves and its collision flag, the draw's rows counted as R168 does. -/
def State.drawnCanvas (s : State) (xs ys : Byte) (n : Nibble) : Canvas :=
  Canvas.rows s.mem s.i.toNat ys.toNat (startCol xs) (startOff xs) (rowsOnScreen xs ys n) ⟨s.disp, false⟩

theorem State.drawAt_eq (s : State) (xs ys : Byte) (n : Nibble) :
    s.drawAt xs ys n = (s.setDisp (s.drawnCanvas xs ys n).disp).setReg 0xF (flagByte (s.drawnCanvas xs ys n).hit) := by
  rw [State.drawAt, rowsDrawn_eq_rowsOnScreen]
  rfl

@[simp] theorem State.drawAt_i : (s.drawAt xs ys n).i = s.i := rfl
@[simp] theorem State.drawAt_mem : (s.drawAt xs ys n).mem = s.mem := rfl

@[simp] theorem State.drawAt_disp : (s.drawAt xs ys n).disp = (s.drawnCanvas xs ys n).disp := by
  rw [State.drawAt_eq, State.setReg_disp, State.setDisp_disp]

theorem State.reg_drawAt_vf : (s.drawAt xs ys n).reg 0xF = flagByte (s.drawnCanvas xs ys n).hit := by
  rw [State.drawAt_eq, State.reg_setReg_same]

theorem State.reg_drawAt_other {q : Nibble} (hq : q ≠ 0xF) : (s.drawAt xs ys n).reg q = s.reg q := by
  rw [State.drawAt_eq, State.reg_setReg_other _ _ hq, State.setDisp_reg]

theorem State.drawnCanvas_of_noRows (h : rowsOnScreen xs ys n = 0) : s.drawnCanvas xs ys n = ⟨s.disp, false⟩ := by
  rw [State.drawnCanvas, h, Canvas.rows]

theorem spriteCovers_zero (mem : Mem) (base x0 y0 px py : Nat) : spriteCovers mem base x0 y0 0 px py = false := by
  have hrow : ¬ (y0 ≤ py ∧ py < y0 + 0 ∧ x0 ≤ px ∧ px < x0 + 8) := by omega
  rw [spriteCovers, decide_eq_false hrow, Bool.false_and]

theorem lt_of_spriteCovers {mem : Mem} {base x0 y0 m px py : Nat} (h : spriteCovers mem base x0 y0 m px py = true) :
    py < y0 + m := by
  rw [spriteCovers, Bool.and_eq_true, decide_eq_true_eq] at h
  obtain ⟨⟨-, hpy, -⟩, -⟩ := h
  exact hpy

theorem startCol_mul_add_startOff (xs : Byte) : startCol xs * 8 + startOff xs = xs.toNat := Nat.div_add_mod' ..

theorem startCol_lt (h : xs.toNat < 64) : startCol xs < 8 := Nat.div_lt_of_lt_mul h

theorem startOff_lt (xs : Byte) : startOff xs < 8 := Nat.mod_lt _ (by decide)

/-- A draw inverts the pixels its sprite covers (R167). -/
theorem State.pixelOf_drawnCanvas {px : Nat} (py : Nat) (hpx : px < 64) :
    pixelOf (s.drawnCanvas xs ys n).disp px py = (pixelOf s.disp px py ^^
      spriteCovers s.mem s.i.toNat xs.toNat ys.toNat (rowsOnScreen xs ys n) px py) := by
  obtain hnone | ⟨hxs, hrows⟩ := rowsOnScreen_le xs ys n
  · rw [State.drawnCanvas_of_noRows hnone, hnone, spriteCovers_zero, Bool.xor_false]
  · rw [State.drawnCanvas, pixelOf_rows _ _ _ _ _ _ _ _ _ hrows (startCol_lt hxs) (startOff_lt xs) hpx,
      startCol_mul_add_startOff]

/-- A draw collides when a pixel its sprite covers was on (R167). -/
theorem State.hit_drawnCanvas : (s.drawnCanvas xs ys n).hit = true ↔
    ∃ px py, px < 64 ∧ py < 32 ∧ pixelOf s.disp px py = true ∧
      spriteCovers s.mem s.i.toNat xs.toNat ys.toNat (rowsOnScreen xs ys n) px py = true := by
  obtain hnone | ⟨hxs, hrows⟩ := rowsOnScreen_le xs ys n
  · simp [State.drawnCanvas_of_noRows hnone, hnone, spriteCovers_zero]
  · rw [State.drawnCanvas, hit_rows _ _ _ _ _ _ _ hrows (startCol_lt hxs) (startOff_lt xs), startCol_mul_add_startOff]
    constructor
    · rintro (hstart | ⟨px, py, hpx, hon, hcov⟩)
      · cases hstart
      · exact ⟨px, py, hpx, (lt_of_spriteCovers hcov).trans_le hrows, hon, hcov⟩
    · rintro ⟨px, py, hpx, -, hon, hcov⟩
      exact .inr ⟨px, py, hpx, hon, hcov⟩

theorem flagByte_zero_or_one (b : Bool) : flagByte b = 0 ∨ flagByte b = 1 := by revert b; decide

theorem flagByte_eq_one_iff (b : Bool) : flagByte b = 1 ↔ b = true := by revert b; decide

/-! ## DRW (R166 to R171) -/

/-- Settles O28: no row above 0xFFF is read, so the draw is made, and VF takes its collision flag. -/
theorem drawInvertsCoveredPixelsAndReportsCollision : Obligations.DrawInvertsCoveredPixelsAndReportsCollision := by
  intro x y n s hfit
  have hrange : s.drawOutOfRange (s.reg x) (s.reg y) n = false := by
    rw [← Bool.not_eq_true, State.drawOutOfRange_iff]
    omega
  refine ⟨_, exec_drw_of_inRange hrange, fun px py hpx _ => ?_, ?_, ?_, s.drawAt_frame _ _ n⟩
  · rw [State.drawAt_disp, State.pixelOf_drawnCanvas py hpx]
  · rw [State.reg_drawAt_vf]
    exact flagByte_zero_or_one _
  · rw [State.reg_drawAt_vf, flagByte_eq_one_iff, State.hit_drawnCanvas]

/-- Settles O29: the last row above 0xFFF is DRW's stopping condition. -/
theorem drawPastMemoryFaults : Obligations.DrawPastMemoryFaults := fun _ _ _ _ hrows hpast =>
  exec_of_memRange (if_pos ⟨hrows, by omega⟩)

/-- No row is drawn from a start off the screen, nor of a sprite without rows (R168, R171). -/
theorem rowsOnScreen_eq_zero (h : xs.toNat ≥ 64 ∨ ys.toNat ≥ 32 ∨ n = 0) : rowsOnScreen xs ys n = 0 := by
  rw [rowsOnScreen]
  split
  · rfl
  · obtain hxs | hys | rfl := h
    · contradiction
    · rw [Nat.sub_eq_zero_of_le hys, Nat.min_zero]
    · exact Nat.zero_min _

/-- A draw without rows clears VF and does nothing else (R169). -/
theorem State.drawAt_of_noRows (h : rowsOnScreen xs ys n = 0) : s.drawAt xs ys n = s.setReg 0xF 0 := by
  rw [State.drawAt_eq, State.drawnCanvas_of_noRows h]
  rfl

/-- Settles O30: with no row drawn the range is not checked, and VF's clearing is the one write. -/
theorem drawWithNothingOnScreenOnlyClearsVF : Obligations.DrawWithNothingOnScreenOnlyClearsVF := by
  intro x y n s hoff
  have hnone : rowsOnScreen (s.reg x) (s.reg y) n = 0 := rowsOnScreen_eq_zero hoff
  have hrange : s.drawOutOfRange (s.reg x) (s.reg y) n = false := by
    rw [← Bool.not_eq_true, State.drawOutOfRange_iff]
    omega
  rw [exec_drw_of_inRange hrange, State.drawAt_of_noRows hnone]
  exact ⟨_, rfl, s.reg_setReg_same 0xF 0, leaves_setReg 0 (List.mem_singleton_self 0xF)⟩

/-! ## The same sprite twice (95_test_vectors.md S7) -/

/-- The second draw inverts the same pixels again. -/
theorem State.drawAt_drawAt_disp : ((s.drawAt xs ys n).drawAt xs ys n).disp = s.disp := by
  apply display_ext
  intro px py hpx _
  rw [State.drawAt_disp, State.pixelOf_drawnCanvas py hpx, State.drawAt_disp, State.pixelOf_drawnCanvas py hpx,
    State.drawAt_mem, State.drawAt_i, Bool.xor_assoc, Bool.xor_self, Bool.xor_false]

theorem exec_drw_of_outOfRange (h : s.drawOutOfRange (s.reg x) (s.reg y) n = true) :
    exec (.drw x y n) s = .next (s.stop .fault .faultMemRange) := if_pos h

/-- The range check reads no state but the index. -/
theorem State.drawOutOfRange_congr {t : State} (hi : t.i = s.i) : t.drawOutOfRange xs ys n = s.drawOutOfRange xs ys n := by
  rw [Bool.eq_iff_iff, State.drawOutOfRange_iff, State.drawOutOfRange_iff, hi]

/-- Settles O31: the first draw leaves the place and the sprite as they were, so both draws fault, or both are made. -/
theorem drawingTwiceErases : Obligations.DrawingTwiceErases := by
  intro x y n s t u hx hy hst htu
  cases hrange : s.drawOutOfRange (s.reg x) (s.reg y) n with
  | true =>
    obtain rfl := next_inj ((exec_drw_of_outOfRange hrange).symm.trans hst)
    have hagain : (s.stop .fault .faultMemRange).drawOutOfRange (s.reg x) (s.reg y) n = true :=
      (State.drawOutOfRange_congr (s.stop_i _ _)).trans hrange
    rw [← next_inj ((exec_drw_of_outOfRange hagain).symm.trans htu), State.stop_disp, State.stop_disp]
  | false =>
    obtain rfl := next_inj ((exec_drw_of_inRange hrange).symm.trans hst)
    have hregx : (s.drawAt (s.reg x) (s.reg y) n).reg x = s.reg x := State.reg_drawAt_other hx
    have hregy : (s.drawAt (s.reg x) (s.reg y) n).reg y = s.reg y := State.reg_drawAt_other hy
    have hagain : (s.drawAt (s.reg x) (s.reg y) n).drawOutOfRange
        ((s.drawAt (s.reg x) (s.reg y) n).reg x) ((s.drawAt (s.reg x) (s.reg y) n).reg y) n = false := by
      rw [hregx, hregy, State.drawOutOfRange_congr State.drawAt_i, hrange]
    rw [← next_inj ((exec_drw_of_inRange hagain).symm.trans htu), hregx, hregy, State.drawAt_drawAt_disp]

end Sys2Proof.Machine
end

section
/-! The keys and the timers (spec/45_keys_timers.md). -/

namespace Sys2Proof.Machine

variable {s : State} {x : Nibble}

/-! ## SKP and SKNP (R185, R186) -/

theorem State.skipIf_pc (s : State) (c : Bool) : (s.skipIf c).pc = if c = true then s.pc + 2 else s.pc := by
  rw [State.skipIf_eq, State.setPc_pc]

theorem State.skipIf_not_pc (s : State) (c : Bool) : (s.skipIf (!c)).pc = if c = true then s.pc else s.pc + 2 := by
  cases c <;> rfl

@[simp] theorem State.skipIf_keyDownIx (s : State) (c : Bool) : (s.skipIf c).keyDownIx = s.keyDownIx := by
  rw [State.skipIf_eq, State.setPc_keyDownIx]

/-- Taking an answer and then skipping writes the counter and PC, whatever the answer. -/
theorem leaves_tookKeyDown_skipIf (c : Bool) :
    Leaves { pc := true, keyDown := true } s (s.tookKeyDown.skipIf c) :=
  (leaves_tookKeyDown rfl).trans (leaves_skipIf c rfl)

/-- Settles O32: one answer is taken, then SKP skips on it and SKNP on its negation. -/
theorem keySkipsFollowTheAnswer : Obligations.KeySkipsFollowTheAnswer := fun _ s =>
  ⟨⟨_, rfl, s.tookKeyDown.skipIf_pc _, s.tookKeyDown.skipIf_keyDownIx _, leaves_tookKeyDown_skipIf _⟩,
    ⟨_, rfl, s.tookKeyDown.skipIf_not_pc _, s.tookKeyDown.skipIf_keyDownIx _, leaves_tookKeyDown_skipIf _⟩⟩

/-! ## LD Vx, K (R187) -/

theorem exec_ldVxK_of_noEvent (h : Config.keyEvent s.keyEventIx = none) :
    exec (.ldVxK x) s = .next (s.tookKeyEvent.setPc (s.pc - 2)) :=
  congrArg (fun e => Host.Outcome.next (s.tookKeyEvent.keyEventInto e x)) h

theorem exec_ldVxK_of_event {code : Byte} (h : Config.keyEvent s.keyEventIx = some code) :
    exec (.ldVxK x) s = .next (s.tookKeyEvent.setReg x code) :=
  congrArg (fun e => Host.Outcome.next (s.tookKeyEvent.keyEventInto e x)) h

/-- Settles O33: one answer is taken; then the one write is of PC without an event, of Vx with one. -/
theorem keyWaitRepeatsOrStoresTheCode : Obligations.KeyWaitRepeatsOrStoresTheCode := by
  intro x s
  cases h : Config.keyEvent s.keyEventIx with
  | none => exact ⟨_, exec_ldVxK_of_noEvent h, rfl, rfl, (leaves_tookKeyEvent rfl).trans (leaves_setPc _ rfl)⟩
  | some code =>
    exact ⟨_, exec_ldVxK_of_event h, rfl, State.reg_setReg_same _ x code,
      (leaves_tookKeyEvent rfl).trans (leaves_setReg code (List.mem_singleton_self x))⟩

theorem State.setPc_setPc (s : State) (w w' : Word) : (s.setPc w).setPc w' = s.setPc w' := rfl

theorem State.setPc_pc_self (s : State) : s.setPc s.pc = s := rfl

/-- Without an event the wait undoes the fetch's advance (D21), also where the advance wrapped. -/
theorem State.keyEventInto_none_advance (s : State) (x : Nibble) : s.advance.keyEventInto none x = s :=
  calc s.advance.keyEventInto none x
    _ = (s.setPc (s.pc + 2)).setPc (s.pc + 2 - 2) := rfl
    _ = s.setPc (s.pc + 2 - 2) := s.setPc_setPc _ _
    _ = s.setPc s.pc := by rw [BitVec.add_sub_cancel]
    _ = s := s.setPc_pc_self

/-- Settles O34: without an event the advance is undone; with one, Vx is the one write after the advance. -/
theorem keyWaitForEveryAnswer : Obligations.KeyWaitForEveryAnswer := fun x s =>
  ⟨s.keyEventInto_none_advance x, fun code =>
    ⟨s.advance.reg_setReg_same x code, leaves_setReg code (List.mem_singleton_self x)⟩⟩

/-! ## The timers (R189 to R191) -/

/-- Settles O35: each instruction is one write, of Vx or of a timer. -/
theorem timerInstructionsReadAndSet : Obligations.TimerInstructionsReadAndSet := fun x s =>
  ⟨⟨_, rfl, s.reg_setReg_same x s.dt, leaves_setReg _ (List.mem_singleton_self x)⟩,
    ⟨_, rfl, s.setDT_dt _, leaves_setDT _ rfl⟩, ⟨_, rfl, s.setST_st _, leaves_setST _ rfl⟩⟩

end Sys2Proof.Machine
end

section
/-! The index and memory (spec/46_index_memory.md): ADD I, LD F, LD B, and the block store and load. -/

namespace Sys2Proof.Machine

variable {s : State} {n : Nibble}

/-! ## ADD I and LD F (R200, R201) -/

/-- Settles O38: the one write is of the index, the sum wrapping with the word. -/
theorem addToIndexWrapsAtSixteenBits : Obligations.AddToIndexWrapsAtSixteenBits := by
  intro x s
  have hsum : (s.i + s.regExtended x).toNat = (s.i.toNat + (s.reg x).toNat) % 65536 := by
    rw [BitVec.toNat_add, State.regExtended_toNat]
  exact ⟨_, rfl, hsum, leaves_setI _ rfl⟩

/-- Settles O39: the one write is of the index, with the glyph's address. -/
theorem fontIndexPointsAtTheGlyph : Obligations.FontIndexPointsAtTheGlyph := fun x s =>
  ⟨_, rfl, glyphAddr_toNat (s.reg x), leaves_setI _ rfl⟩

/-! ## Drawing a glyph (R171, R201) -/

theorem rowsOnScreen_le_rowCount (xs ys : Byte) (n : Nibble) : rowsOnScreen xs ys n ≤ n.toNat := by
  rw [rowsOnScreen]
  split
  · exact Nat.zero_le _
  · exact Nat.min_le_left ..

/-- Every glyph lies whole in memory, whichever byte selects it (R54, D18). -/
theorem glyphAddr_add_five_le (b : Byte) : (glyphAddr b).toNat + 5 ≤ 0x1000 := by
  rw [glyphAddr_toNat, fontBase]
  omega

theorem State.drawOutOfRange_of_glyph {b : Byte} (xs ys : Byte) (hi : s.i = glyphAddr b) (hn : n.toNat ≤ 5) :
    s.drawOutOfRange xs ys n = false := by
  have hglyph := glyphAddr_add_five_le b
  have hrows := rowsOnScreen_le_rowCount xs ys n
  rw [← Bool.not_eq_true, State.drawOutOfRange_iff, hi]
  omega

/-- Settles O40: the rows of a glyph lie in memory, so the draw is made, and neither write is of status or cause. -/
theorem drawingAGlyphNeverFaults : Obligations.DrawingAGlyphNeverFaults := by
  intro x a b n s t u hn hst htu
  obtain rfl : s.setI (glyphAddr (s.reg x)) = t := next_inj hst
  have hrange (xs ys : Byte) : (s.setI (glyphAddr (s.reg x))).drawOutOfRange xs ys n = false :=
    State.drawOutOfRange_of_glyph xs ys (s.setI_i _) hn
  obtain rfl := next_inj ((exec_drw_of_inRange (hrange _ _)).symm.trans htu)
  exact ⟨rfl, rfl⟩

/-! ## The three digits (R202) -/

/-- After bytes are stored from `I` on, the byte at `I + k` is the `k`-th of them (R199). -/
theorem State.byteAt_storeBytes_effAddr {bs : List Byte} {k : Nat} (hk : k < bs.length)
    (hfit : s.i.toNat + bs.length ≤ Config.memSize) :
    (s.storeBytes (s.effAddr 0) bs).byteAt (s.effAddr k) = bs.getD k 0 := by
  have hin : s.effAddr 0 ≤ s.effAddr k ∧ s.effAddr k < s.effAddr 0 + bs.length := by
    simp only [State.effAddr]
    omega
  have hoffset : s.effAddr k - s.effAddr 0 = k := Nat.add_sub_cancel_left ..
  rw [s.byteAt_storeBytes (s.effAddr 0) _ _ hfit, if_pos hin, hoffset]

theorem bcdDigits_getD_toNat (b : Byte) (k : Nat) :
    ((bcdDigits b).getD k 0).toNat = [b.toNat / 100, b.toNat / 10 % 10, b.toNat % 10].getD k 0 := by
  rw [← bcdDigits_toNat]
  exact (List.getD_map _ _ BitVec.toNat).symm

/-- Settles O41: in range the digits are stored, and the byte at `I + k` is the `k`-th digit. -/
theorem bcdStoresThreeDigits : Obligations.BcdStoresThreeDigits := by
  intro x s hfit
  have digit {k : Nat} (hk : k < 3) :
      ((s.storeBytes (s.effAddr 0) (bcdDigits (s.reg x))).byteAt (s.effAddr k)).toNat =
        [(s.reg x).toNat / 100, (s.reg x).toNat / 10 % 10, (s.reg x).toNat % 10].getD k 0 := by
    have hsize : s.i.toNat + (bcdDigits (s.reg x)).length ≤ Config.memSize := Nat.succ_le_succ hfit
    rw [State.byteAt_storeBytes_effAddr hk hsize, bcdDigits_getD_toNat]
  exact ⟨_, exec_ldB_of_inRange x ((s.outOfRange_eq_false 2).mpr hfit), digit (k := 0) (by decide),
    digit (k := 1) (by decide), digit (k := 2) (by decide), leaves_storeBytes_effAddr rfl rfl⟩

/-! ## The blocks V0 to Vx (R203, R204) -/

/-- Settles O42: in range the block is stored, and the byte at `I + r` is register `r`. -/
theorem blockStoreWritesV0ToVx : Obligations.BlockStoreWritesV0ToVx := fun x s hfit =>
  ⟨_, exec_storeRegs_of_inRange ((s.outOfRange_eq_false _).mpr hfit),
    fun _ hr => State.byteAt_storeBytes_regsUpTo hr hfit, leaves_storeBytes_effAddr (s.regsUpTo_length x) rfl⟩

/-- Settles O43: in range the block is loaded, and the registers split at Vx into the loaded and the unchanged. -/
theorem blockLoadReadsV0ToVx : Obligations.BlockLoadReadsV0ToVx := by
  intro x s hfit
  refine ⟨_, exec_loadRegs_of_inRange ((s.outOfRange_eq_false _).mpr hfit), fun r hr => ?_, fun r hr => ?_,
    leaves_loadInto _ _ rfl⟩
  · rw [State.reg_loadInto, if_pos (Nat.lt_succ_of_le hr)]
    rfl
  · rw [State.reg_loadInto, if_neg (Nat.not_lt_of_le hr)]

end Sys2Proof.Machine
end

section
/-! The step (spec/60_exceptions.md R230, R231, R237 to R239): a stopped core, a PC past the top, and the stops. -/

namespace Sys2Proof.Machine

variable {i : Instr} {s t : State}

/-! ## The step of each kind of state (R230, S0 to S5) -/

/-- Settles O9: the test of the status stands first (S0). -/
theorem stoppedCoreStaysAsItIs : Obligations.StoppedCoreStaysAsItIs := fun _ hstop => if_pos hstop

theorem step_of_pcPastTop (hrun : s.status = .running) (htop : s.pc.toNat > 0xFFE) :
    step s = .next (s.stop .halted .haltPcTop) := by
  have hpast : s.pcPastTop = true := decide_eq_true htop
  simp [step, stepWith, hrun, hpast]

/-- Settles O8: the halt is one write of status and cause, made before the fetch and its advance. -/
theorem stepPastTheTopHalts : Obligations.StepPastTheTopHalts := fun _ hrun htop =>
  ⟨_, step_of_pcPastTop hrun htop, rfl, rfl, leaves_stop _ _ rfl⟩

theorem decode_bytesAtPc (s : State) :
    decode [s.byteAt s.pc.toNat, s.byteAt (s.pc.toNat + 1)] = .ok (decodeWord s.fetchWord, []) := rfl

/-- Settles O7: the two bytes at PC are those of the fetched word. -/
theorem stepRunsTheDecodedInstruction : Obligations.StepRunsTheDecodedInstruction := by
  intro s i hrun hpc hdecode
  rw [decode_bytesAtPc] at hdecode
  obtain ⟨rfl, -⟩ := Prod.mk.inj (Except.ok.inj hdecode)
  exact step_of_running hrun hpc

/-- The fetch's advance does not wrap where a fetch happens (R25, R27). -/
theorem State.advancedPc_toNat (hpc : s.pc.toNat ≤ 0xFFE) : (s.pc + 2).toNat = s.pc.toNat + 2 := by
  bv_omega

/-! ## Every state has a next state (R230) -/

theorem exec_next (i : Instr) (s : State) : ∃ t, exec i s = .next t := by
  cases hc : stopCause i s with
  | some c => exact ⟨_, exec_of_stopCause hc⟩
  | none =>
    obtain ⟨t, ht, -⟩ := exec_leaves_writesOf i s hc
    exact ⟨t, ht⟩

theorem step_next (s : State) : ∃ t, step s = .next t := by
  by_cases hrun : s.status = .running
  · by_cases hpc : s.pc.toNat ≤ 0xFFE
    · rw [step_of_running hrun hpc]
      exact exec_next _ _
    · exact ⟨_, step_of_pcPastTop hrun (Nat.lt_of_not_le hpc)⟩
  · exact ⟨s, stoppedCoreStaysAsItIs s hrun⟩

/-- Settles O10. -/
theorem everyStateHasANextState : Obligations.EveryStateHasANextState := ⟨step_next, exec_next⟩

/-! ## The stops (R232, R237, R238) -/

/-- Settles O48: a stop is one write of status and cause, and no row of the table of R39 names them. -/
theorem stopsArePreciseAndExactlyThese : Obligations.StopsArePreciseAndExactlyThese := by
  intro i s
  constructor
  · intro c hc
    exact ⟨_, exec_of_stopCause hc, rfl, rfl, leaves_stop _ _ rfl⟩
  · intro hgo
    obtain ⟨t, ht, -, -, -, -, -, -, -, -, hstatus, -⟩ := exec_leaves_writesOf i s hgo
    exact ⟨t, ht, hstatus (writesOf_status i s)⟩

/-- Settles O14: the empty stack is RET's stopping condition, which the fetch's advance leaves as it is. -/
theorem retOnEmptyStackHalts : Obligations.RetOnEmptyStackHalts := by
  intro s hrun hpc hret hempty
  have hstep : step s = .next ((s.setPc (s.pc + 2)).stop .halted .haltStackEmpty) := by
    rw [step_of_running hrun hpc, hret]
    exact exec_of_stopCause (i := .ret) (s := s.setPc (s.pc + 2)) (if_pos hempty)
  exact ⟨_, hstep, rfl, rfl, State.advancedPc_toNat hpc, hempty, (leaves_setPc _ rfl).trans (leaves_stop _ _ rfl)⟩

end Sys2Proof.Machine
end

section
/-! The unrecognised words (spec/47_unrecognised.md R220, R221), family by family of the decoder. -/

namespace Sys2Proof.Laws

theorem decode0_eq_nop_iff (op : Word) : decode0 op = .nop op ↔ op ≠ 0x00E0 ∧ op ≠ 0x00EE := by
  unfold decode0
  split
  · exact iff_of_false nofun fun h => h.1 ‹_›
  · split
    · exact iff_of_false nofun fun h => h.2 ‹_›
    · exact iff_of_true rfl ⟨‹_›, ‹_›⟩

theorem decode8_eq_nop_iff (op : Word) :
    decode8 op = .nop op ↔ fieldN op ∈ [0x8, 0x9, 0xA, 0xB, 0xC, 0xD, 0xF] := by
  unfold decode8
  split
  case h_10 =>
    refine iff_of_true rfl ?_
    simp only [List.mem_cons, List.not_mem_nil, or_false, imp_false] at *
    bv_omega
  all_goals simp [*]

theorem decodeE_eq_nop_iff (op : Word) : decodeE op = .nop op ↔ fieldKK op ∉ [0x9E, 0xA1] := by
  unfold decodeE
  split <;> simp_all

theorem decodeF_eq_nop_iff (op : Word) :
    decodeF op = .nop op ↔ fieldKK op ∉ [0x07, 0x0A, 0x15, 0x18, 0x1E, 0x29, 0x33, 0x55, 0x65] := by
  unfold decodeF
  split <;> simp_all

/-- Settles O4: the top nibble selects the family, and with it the one line of the list that can hold. -/
theorem noOpsAreExactlyTheWordsListed : Obligations.NoOpsAreExactlyTheWordsListed := by
  intro op
  unfold decodeWord
  split <;> rename_i hT
  case h_1 => simp [hT, decode0_eq_nop_iff]
  case h_6 | h_10 => split <;> simp_all
  case h_9 => simp [hT, decode8_eq_nop_iff]
  case h_15 => simp [hT, decodeE_eq_nop_iff]
  case h_16 =>
    have hF : fieldT op = 0xF := by
      simp only [imp_false] at *
      bv_omega
    simp [hF, decodeF_eq_nop_iff]
  all_goals simp [hT]

end Sys2Proof.Laws

namespace Sys2Proof.Machine

open Sys2Proof.Laws

/-- Settles O46: such a word decodes to its no-op, so the step is the fetch's advance. -/
theorem unrecognisedWordsOnlyAdvancePc : Obligations.UnrecognisedWordsOnlyAdvancePc := by
  refine ⟨fun _ s => ⟨s, rfl, leaves_refl _ s⟩, fun s hrun hpc hword => ?_⟩
  have hstep : step s = .next (s.setPc (s.pc + 2)) := by
    rw [step_of_running hrun hpc, (decodeWord_eq_nop_iff _).mpr hword]
    rfl
  exact ⟨_, hstep, State.advancedPc_toNat hpc, leaves_setPc _ rfl⟩

end Sys2Proof.Machine
end

section
/-! The environment's timer actions (spec/60_exceptions.md R250 to R252). -/

namespace Sys2Proof.Machine

variable {i : Instr} {s t : State}

/-- Settles O36: the tick is one write of each timer, SetDT and SetST one write of theirs. -/
theorem timerActionsOfTheEnvironment : Obligations.TimerActionsOfTheEnvironment := fun b s =>
  ⟨⟨_, rfl, tickDown_toNat s.dt, tickDown_toNat s.st, (leaves_setDT _ rfl).trans (leaves_setST _ rfl)⟩,
    ⟨_, rfl, s.setDT_dt b, leaves_setDT b rfl⟩, ⟨_, rfl, s.setST_st b, leaves_setST b rfl⟩⟩

/-- LD DT, Vx is the instruction whose row names the delay timer. -/
theorem writesOf_delay (h : ∀ x, i ≠ .ldDTVx x) : (writesOf i s).delay = false := by
  cases i with
  | ldDTVx x => exact absurd rfl (h x)
  | _ => rfl

theorem exec_keeps_dt (hi : ∀ x, i ≠ .ldDTVx x) (h : exec i s = .next t) : t.dt = s.dt := by
  obtain ⟨c, -, rfl⟩ | ⟨-, -, -, -, -, hdelay, -⟩ := exec_cases h
  · rfl
  · exact hdelay (writesOf_delay hi)

theorem step_keeps_dt (hi : ∀ x, decodeWord s.fetchWord ≠ .ldDTVx x) (h : step s = .next t) : t.dt = s.dt := by
  obtain ⟨-, rfl⟩ | ⟨-, -, rfl⟩ | ⟨-, -, hexec⟩ := stepWith_cases h
  · rfl
  · rfl
  · exact exec_keeps_dt (s := s.advance) hi hexec

theorem load_keeps_dt (bytes : List Byte) (overrideReserved : Bool) (s : State) :
    (load bytes overrideReserved s).1.dt = s.dt := by
  obtain ⟨-, hl⟩ | ⟨-, hl⟩ := load_cases bytes overrideReserved s
  · rw [hl]
  · rw [hl, State.storeBytes_dt]

/-- Settles O37, event by event: of those admitted the tick alone writes the delay timer, and it takes one off. -/
theorem delayTimerOnlyCountsDown : Obligations.DelayTimerOnlyCountsDown := by
  intro e s t h hstep hset hreset
  cases e with
  | step => rw [step_keeps_dt (hstep rfl) h]
  | reset => exact absurd rfl hreset
  | load bytes overrideReserved =>
    obtain rfl := next_inj h
    rw [load_keeps_dt]
  | timerTick =>
    obtain rfl := next_inj h
    exact (tickDown_toNat s.dt).trans_le (Nat.sub_le _ 1)
  | setDT b => exact absurd rfl (hset b)
  | setST =>
    obtain rfl := next_inj h
    exact Nat.le_refl _

end Sys2Proof.Machine
end

section
/-! Loading an image (spec/70_reset_and_hazards.md R274 to R276). -/

namespace Sys2Proof.Machine

variable {bytes : List Byte} {overrideReserved : Bool}

theorem load_of_fits (s : State) (hfit : bytes.length ≤ Config.memSize - loadBase overrideReserved) :
    load bytes overrideReserved s = (s.storeBytes (loadBase overrideReserved) bytes, .accepted) :=
  if_neg (by simpa [imageTooLarge] using hfit)

theorem load_of_tooLarge (s : State) (hlarge : bytes.length > Config.memSize - loadBase overrideReserved) :
    load bytes overrideReserved s = (s, .rejected) :=
  if_pos (decide_eq_true hlarge)

theorem loadBase_le_memSize (overrideReserved : Bool) : loadBase overrideReserved ≤ Config.memSize := by
  cases overrideReserved <;> decide

/-- The `k`-th of the bytes stored from `a` on is read at `a + k`. -/
theorem State.getElem?_eq_byteAt_storeBytes (s : State) {a k : Nat} {bs : List Byte} (hk : k < bs.length)
    (hfit : a + bs.length ≤ Config.memSize) : bs[k]? = some ((s.storeBytes a bs).byteAt (a + k)) := by
  have hin : a ≤ a + k ∧ a + k < a + bs.length := by omega
  rw [s.byteAt_storeBytes _ _ _ hfit, if_pos hin, Nat.add_sub_cancel_left, List.getD_eq_getElem _ _ hk,
    List.getElem?_eq_getElem hk]

/-- Bytes stored from `a` on are written at the addresses `a + k`, one for each of them. -/
theorem leaves_storeBytes_range (s : State) (a : Nat) (bs : List Byte) :
    Leaves { memory := (List.range bs.length).map (a + ·) } s (s.storeBytes a bs) := by
  refine leaves_storeBytes fun b hlo hhi => List.mem_map.mpr ⟨b - a, List.mem_range.mpr ?_, ?_⟩ <;> omega

/-- Settles O55: an image that fits is one block of bytes stored at its base. -/
theorem loadCopiesAnImageThatFits : Obligations.LoadCopiesAnImageThatFits := by
  intro bytes overrideReserved s hfit
  have hroom : loadBase overrideReserved + bytes.length ≤ Config.memSize :=
    Nat.add_le_of_le_sub' (loadBase_le_memSize overrideReserved) hfit
  rw [load_of_fits s hfit]
  exact ⟨rfl, fun k hk => s.getElem?_eq_byteAt_storeBytes hk hroom, leaves_storeBytes_range s _ bytes⟩

/-- Settles O56: the size is tested before any byte is stored, and an empty image always fits and stores none. -/
theorem loadRejectsAnImageThatDoesNotFit : Obligations.LoadRejectsAnImageThatDoesNotFit := fun _ _ s =>
  ⟨load_of_tooLarge s, load_of_fits s (Nat.zero_le _)⟩

end Sys2Proof.Machine
end
